-- ==== Sys2Proof/Config.lean ====
section
/-! DEFINITION. The implementation parameters of R4, each under its own name. The only one the spec leaves
OPEN is `FIELD_MAXLEN`: it has no value here. -/

namespace Sys2Proof

/-- `CHUNK_LEN` (R4): bytes in every chunk. -/
@[simp] abbrev Config.chunkLen : Nat := 7
/-- `BUF_CAP` (R4): bytes in the AssemblyBuffer. -/
@[simp] abbrev Config.bufCap : Nat := 42
/-- `REPORT_LEN` (R4): bytes in a report. -/
@[simp] abbrev Config.reportLen : Nat := 37
/-- `N_CHUNKS` (R4): chunks per report. -/
@[simp] abbrev Config.nChunks : Nat := 6
/-- `PAD_LEN` (R4): buffered bytes never interpreted. -/
@[simp] abbrev Config.padLen : Nat := 5
/-- `MAGIC` (R4): the marker as a 16-bit value, low byte FE first on the wire. -/
@[simp] abbrev Config.magic : BitVec 16 := 0xFDFE
/-- `N_SLOTS` (R4): axis slots, three WC then three MC. -/
@[simp] abbrev Config.nSlots : Nat := 6
/-- `SLOT_BASE` (R4): report offset of slot 0. -/
@[simp] abbrev Config.slotBase : Nat := 3
/-- `SLOT_LEN` (R4): bytes per slot. -/
@[simp] abbrev Config.slotLen : Nat := 4
/-- `FRAC_MASK` (R4): the fraction's bits in the fractional field. -/
@[simp] abbrev Config.fracMask : BitVec 16 := 0x7FFF
/-- `SIGN_BIT` (R4): the sign's bit in the fractional field. -/
@[simp] abbrev Config.signBit : Nat := 15
/-- `SCALE` (R4): the fraction counts units of 1/10000. -/
@[simp] abbrev Config.scale : Nat := 10000
/-- `MAG_W` (R4): the width of the magnitude output. -/
@[simp] abbrev Config.magW : Nat := 30
/-- `AXIS_W` (R4): the width of the axis-index port. -/
@[simp] abbrev Config.axisW : Nat := 2
/-- `CURSOR_W` (R4): the width of the cursor. -/
@[simp] abbrev Config.cursorW : Nat := 6
/-- `REFRESH_MS` (R4): the fallback refresh threshold. -/
@[simp] abbrev Config.refreshMs : Nat := 500
/-- `NOW_W` (R4): the width of the millisecond counter and of `last_redraw_ms`. -/
@[simp] abbrev Config.nowW : Nat := 32
/-- `ENC_W` (R4): the width of a packed raw encoding. -/
@[simp] abbrev Config.encW : Nat := 32
/-- `N_DIFF_FIELDS` (R4): the fields with a cached string. -/
@[simp] abbrev Config.nDiffFields : Nat := 8
/-- `N_FIELDS` (R4): the named field identifiers. -/
@[simp] abbrev Config.nFields : Nat := 10
/-- `CHAR_W` (R4): the width of a character code. -/
@[simp] abbrev Config.charW : Nat := 8
/-- `BAR_MAX` (R4): the upper clamp of a bar percentage. -/
@[simp] abbrev Config.barMax : Nat := 100

/-- `FIELD_MAXLEN` less one: an implementation's choice, OPEN in R4 (D26, U11). No body, so no statement
can rest on a value of it (log 3). -/
opaque Config.fieldMaxLenPred : Nat

/-- `FIELD_MAXLEN` (R4): the largest string length a field cache holds; "must be ≥ 1". -/
def Config.fieldMaxLen : Nat := Config.fieldMaxLenPred + 1

/-- `LEN_W` (R4): the width of a length, ceil(log2(maxLen + 1)), for a `FIELD_MAXLEN` of at least 1. -/
def Config.lenWidth (maxLen : Nat) : Nat := Nat.log2 maxLen + 1

end Sys2Proof
end

