-- ==== Sys2Proof/Word.lean ====
section
/-! DEFINITION. The values the RFE's ports and registers carry (R4, R130, R131), each of the width R4 names. -/

namespace Sys2Proof

/-- The addressable unit of every byte space (R31). -/
abbrev Byte := BitVec 8

/-- A 16-bit field of a report (R47). -/
abbrev Half := BitVec 16

/-- The chunk port, seven byte lanes (R34, R46). -/
abbrev Chunk := BitVec 56

/-- The write cursor (R13). -/
abbrev Cursor := BitVec Config.cursorW

/-- A packed raw encoding (R50). -/
abbrev Encoding := BitVec Config.encW

/-- A count of milliseconds, modulo its width (R20, R104). -/
abbrev Millis := BitVec Config.nowW

/-- The magnitude of a decoded axis, in units of 1/10000 (R51, R82). -/
abbrev Magnitude := BitVec Config.magW

/-- An axis index (R53). -/
abbrev AxisIndex := BitVec Config.axisW

/-- A character code, opaque (R61, R116). -/
abbrev CharCode := BitVec Config.charW

end Sys2Proof
end

