-- ==== Sys2Proof/Machine/Lanes.lean ====
section
/-! DEFINITION. Byte lanes of the wide ports and the magic test: the bit-field helpers that decoding and the
operations share. -/

namespace Sys2Proof.Machine

/-- Byte lane `i` of a port: bits `[8i+7 : 8i]` (R34). -/
def lane {w : Nat} (v : BitVec w) (i : Nat) : Byte := v.extractLsb' (8 * i) 8

/-- Chunk byte `i`, byte 0 the first byte delivered (R34, R46). -/
def chunkByte (c : Chunk) (i : Nat) : Byte := lane c i

/-- The seven bytes of a chunk, first byte first. -/
def chunkBytes (c : Chunk) : List Byte := (List.range Config.chunkLen).map (chunkByte c)

/-- The magic test (R66): `chunk_data[15:0]` is the marker. No state is looked at. -/
def isMagic (c : Chunk) : Bool := c.extractLsb' 0 16 == Config.magic

/-- The number whose consecutive `k`-bit fields are `vs`, the first in the lowest bits. -/
def fieldsNat {k : Nat} : List (BitVec k) → Nat
  | [] => 0
  | v :: vs => v.toNat + 2 ^ k * fieldsNat vs

/-- The port of `w` bits that carries `vs`, value `i` in bits `[k·i+k-1 : k·i]` (R34, R130, R131). -/
def packLanes {k : Nat} (w : Nat) (vs : List (BitVec k)) : BitVec w := BitVec.ofNat w (fieldsNat vs)

end Sys2Proof.Machine
end

