-- ==== Sys2Proof/Syntax.lean ====
section
/-! DEFINITION. The operations of the RFE (one constructor per row of spec/opcode_table.json), the input ports
they are selected by (R130), and the names of the places in a cycle at which one operation is selected (R56). -/

namespace Sys2Proof

/-- The ports that are always active and have no selection of their own: GET.* (R92 to R99), BAR.* (R123, R124). -/
inductive ReadPort where
  | magic | key | feedOvr | spindleOvr | feed | spindle | step | state | barFeed | barSpindle
deriving DecidableEq, Repr

/-- The places in a cycle at which one operation is selected (the column "block" of R56). -/
inductive Block where
  /-- RESET, by `rst`. -/
  | system
  /-- FEED.*, by `chunk_valid`, the chunk and the control state. -/
  | reassembler
  /-- DEC.*, by `dec_cs` and `dec_axis`, in every cycle. -/
  | decoder
  /-- GET.* and BAR.*, in every cycle. -/
  | port (p : ReadPort)
  /-- EVAL, by `report_valid` or the standalone strobe. -/
  | detector
  /-- UPD and UPD.REFUSED, by `upd_valid`. -/
  | cellDiff
deriving DecidableEq, Repr

/-- The input ports in one cycle (R130, less `clk`). `updChr` lists the lanes of `upd_chr` from lane 0, the
leftmost character; a lane the list does not reach carries 0x00. `evalStrobe` is the strobe of a standalone
detector (R56, R60, R100), which the composed RFE of R132 does not have: 0 there (log 1). -/
structure Pins where
  rst : Bool
  chunkValid : Bool
  chunkData : Chunk
  nowMs : Millis
  decCs : Bool
  decAxis : AxisIndex
  updValid : Bool
  updField : BitVec 4
  updLen : Nat
  updChr : List CharCode
  evalStrobe : Bool
deriving DecidableEq, Repr

/-- Every port at 0: no strobe. -/
def Pins.idle : Pins :=
  { rst := false, chunkValid := false, chunkData := 0, nowMs := 0, decCs := false, decAxis := 0,
    updValid := false, updField := 0, updLen := 0, updChr := [], evalStrobe := false }

/-- The same ports with every strobe released (R167 (2)). -/
def Pins.released (p : Pins) : Pins :=
  { p with rst := false, chunkValid := false, updValid := false, evalStrobe := false }

/-- The control state that takes part in selection (R56, R73): the reassembler's two elements and the EVAL strobe. -/
structure Ctl where
  collecting : Bool
  cursor : Cursor
  reportValid : Bool
deriving DecidableEq, Repr

/-- The operations of R56, one per row of the opcode table. An operand is what the ports carry. -/
inductive Instr where
  /-- RESET (R165). -/
  | reset
  /-- FEED.MAGIC (R67). -/
  | feedMagic (chunk : Chunk)
  /-- FEED.IDLE (R68). -/
  | feedIdle (chunk : Chunk)
  /-- FEED.OVERFLOW (R69). -/
  | feedOverflow (chunk : Chunk)
  /-- FEED.APPEND (R70). -/
  | feedAppend (chunk : Chunk)
  /-- FEED.COMPLETE (R71, R72). -/
  | feedComplete (chunk : Chunk)
  /-- DEC.WCX (R83). -/
  | decWcx
  /-- DEC.WCY (R84). -/
  | decWcy
  /-- DEC.WCZ (R85). -/
  | decWcz
  /-- DEC.MCX (R86). -/
  | decMcx
  /-- DEC.MCY (R87). -/
  | decMcy
  /-- DEC.MCZ (R88). -/
  | decMcz
  /-- DEC.OOR, either value of `dec_cs` (R89). -/
  | decOor (cs : Bool)
  /-- GET.MAGIC (R92). -/
  | getMagic
  /-- GET.KEY (R93). -/
  | getKey
  /-- GET.FEED_OVR (R94). -/
  | getFeedOvr
  /-- GET.SPINDLE_OVR (R95). -/
  | getSpindleOvr
  /-- GET.FEED (R96). -/
  | getFeed
  /-- GET.SPINDLE (R97). -/
  | getSpindle
  /-- GET.STEP (R98). -/
  | getStep
  /-- GET.STATE (R99). -/
  | getState
  /-- EVAL (R107), with `now_ms` of its cycle. -/
  | eval (now : Millis)
  /-- UPD (R119). -/
  | upd (field : BitVec 4) (len : Nat) (chr : List CharCode)
  /-- UPD.REFUSED (R120). -/
  | updRefused (field : BitVec 4) (len : Nat)
  /-- BAR.FEED (R123). -/
  | barFeed
  /-- BAR.SPINDLE (R124). -/
  | barSpindle
deriving DecidableEq, Repr

/-- The block an operation belongs to (R56). -/
def Instr.block : Instr → Block
  | .reset => .system
  | .feedMagic _ => .reassembler
  | .feedIdle _ => .reassembler
  | .feedOverflow _ => .reassembler
  | .feedAppend _ => .reassembler
  | .feedComplete _ => .reassembler
  | .decWcx => .decoder
  | .decWcy => .decoder
  | .decWcz => .decoder
  | .decMcx => .decoder
  | .decMcy => .decoder
  | .decMcz => .decoder
  | .decOor _ => .decoder
  | .getMagic => .port .magic
  | .getKey => .port .key
  | .getFeedOvr => .port .feedOvr
  | .getSpindleOvr => .port .spindleOvr
  | .getFeed => .port .feed
  | .getSpindle => .port .spindle
  | .getStep => .port .step
  | .getState => .port .state
  | .eval _ => .detector
  | .upd _ _ _ => .cellDiff
  | .updRefused _ _ => .cellDiff
  | .barFeed => .port .barFeed
  | .barSpindle => .port .barSpindle

end Sys2Proof
end

