-- ==== Sys2Proof/WellFormed.lean ====
section
/-! DEFINITION. What operands an operation can have, what values the ports can carry, and in which control state
an operation is selected (R56). The length bound is a parameter of the checks because R4 leaves it OPEN. -/

namespace Sys2Proof

/-- The operand conditions of R56, for a `FIELD_MAXLEN` of `maxLen`: a FEED.MAGIC chunk is magic and the other
FEED chunks are not; UPD names a diffed field and a length the cache holds, UPD.REFUSED does not; no more lanes
than `upd_chr` has; a length `upd_len` can carry. -/
def Instr.wellFormedAt (maxLen : Nat) : Instr → Bool
  | .reset => true
  | .feedMagic c => Machine.isMagic c
  | .feedIdle c => !Machine.isMagic c
  | .feedOverflow c => !Machine.isMagic c
  | .feedAppend c => !Machine.isMagic c
  | .feedComplete c => !Machine.isMagic c
  | .decWcx => true
  | .decWcy => true
  | .decWcz => true
  | .decMcx => true
  | .decMcy => true
  | .decMcz => true
  | .decOor _ => true
  | .getMagic => true
  | .getKey => true
  | .getFeedOvr => true
  | .getSpindleOvr => true
  | .getFeed => true
  | .getSpindle => true
  | .getStep => true
  | .getState => true
  | .eval _ => true
  | .upd f len chr => decide (f.toNat < Config.nDiffFields) && decide (len ≤ maxLen) && decide (chr.length ≤ maxLen)
  | .updRefused f len =>
    (decide (Config.nDiffFields ≤ f.toNat) || decide (maxLen < len)) && decide (len < 2 ^ Config.lenWidth maxLen)
  | .barFeed => true
  | .barSpindle => true

/-- Well-formed for the implementation's own `FIELD_MAXLEN`. -/
abbrev Instr.WellFormed (i : Instr) : Prop := i.wellFormedAt Config.fieldMaxLen = true

/-- Port values that the widths of R130 allow, for a `FIELD_MAXLEN` of `maxLen`. -/
def Pins.wellFormedAt (maxLen : Nat) (p : Pins) : Bool :=
  decide (p.updLen < 2 ^ Config.lenWidth maxLen) && decide (p.updChr.length ≤ maxLen)

/-- Port values the implementation's widths allow. -/
abbrev Pins.WellFormed (p : Pins) : Prop := p.wellFormedAt Config.fieldMaxLen = true

/-- The conditions of R56 on the control state: which FEED case a data chunk is. The other operations are
selected by the ports alone. -/
def Ctl.selects (ctl : Ctl) : Instr → Bool
  | .feedIdle _ => !ctl.collecting
  | .feedOverflow _ => ctl.collecting && decide (Config.bufCap < ctl.cursor.toNat + Config.chunkLen)
  | .feedAppend _ =>
    ctl.collecting && decide (ctl.cursor.toNat + Config.chunkLen ≤ Config.bufCap) &&
      decide (ctl.cursor.toNat + Config.chunkLen < Config.reportLen)
  | .feedComplete _ =>
    ctl.collecting && decide (ctl.cursor.toNat + Config.chunkLen ≤ Config.bufCap) &&
      decide (Config.reportLen ≤ ctl.cursor.toNat + Config.chunkLen)
  | .reset => true
  | .feedMagic _ => true
  | .decWcx => true
  | .decWcy => true
  | .decWcz => true
  | .decMcx => true
  | .decMcy => true
  | .decMcz => true
  | .decOor _ => true
  | .getMagic => true
  | .getKey => true
  | .getFeedOvr => true
  | .getSpindleOvr => true
  | .getFeed => true
  | .getSpindle => true
  | .getStep => true
  | .getState => true
  | .eval _ => true
  | .upd _ _ _ => true
  | .updRefused _ _ => true
  | .barFeed => true
  | .barSpindle => true

end Sys2Proof
end

