-- ==== Sys2Proof/Decode.lean ====
section
/-! DEFINITION. The decoder: R56, "a decoder for the RFE is this table". It reads the input ports of a cycle and
the control state, block by block. Below it, an encoder (the port values that select an operation) and the
reading of a word of spec/opcode_table.json. -/

namespace Sys2Proof

/-- Why a block runs nothing in a cycle, or a byte string is no chunk. -/
inductive DecodeError where
  /-- The strobe that selects an operation of the block is 0, or `rst` overrides the block (R56, R79, R108, R125). -/
  | noStrobe (b : Block)
  /-- A byte string that is not the seven bytes of a chunk (R45, R46). -/
  | chunkLength (n : Nat)
deriving DecidableEq, Repr

/-- The FEED case of a chunk: the four tests of R65 in their order, first match wins (R152). -/
def feedCase (ctl : Ctl) (c : Chunk) : Instr :=
  if Machine.isMagic c then .feedMagic c
  else if !ctl.collecting then .feedIdle c
  else if Config.bufCap < ctl.cursor.toNat + Config.chunkLen then .feedOverflow c
  else if ctl.cursor.toNat + Config.chunkLen < Config.reportLen then .feedAppend c
  else .feedComplete c

/-- The decoder select `{dec_cs, dec_axis}` (R53). -/
def decSelect (cs : Bool) (axis : AxisIndex) : Instr :=
  match cs, axis.toNat with
  | false, 0 => .decWcx
  | false, 1 => .decWcy
  | false, 2 => .decWcz
  | true, 0 => .decMcx
  | true, 1 => .decMcy
  | true, 2 => .decMcz
  | cs, _ => .decOor cs

/-- The operation behind an always active port (R56). -/
def readPortInstr : ReadPort → Instr
  | .magic => .getMagic
  | .key => .getKey
  | .feedOvr => .getFeedOvr
  | .spindleOvr => .getSpindleOvr
  | .feed => .getFeed
  | .spindle => .getSpindle
  | .step => .getStep
  | .state => .getState
  | .barFeed => .barFeed
  | .barSpindle => .barSpindle

/-- UPD or UPD.REFUSED (R115, R120), for a `FIELD_MAXLEN` of `maxLen`. -/
def updCase (maxLen : Nat) (p : Pins) : Instr :=
  if p.updField.toNat < Config.nDiffFields ∧ p.updLen ≤ maxLen then .upd p.updField p.updLen p.updChr
  else .updRefused p.updField p.updLen

/-- What a block runs in a cycle: the column "selected by" of R56 with the conditions `rst = 0` of
spec/opcode_table.json, for a `FIELD_MAXLEN` of `maxLen`. Total on any port values. -/
def decodeAt (maxLen : Nat) (b : Block) (ctl : Ctl) (p : Pins) : Except DecodeError Instr :=
  match b with
  | .system =>
    match p.rst with
    | true => .ok .reset
    | false => .error (.noStrobe .system)
  | .reassembler =>
    match p.rst, p.chunkValid with
    | false, true => .ok (feedCase ctl p.chunkData)
    | _, _ => .error (.noStrobe .reassembler)
  | .decoder => .ok (decSelect p.decCs p.decAxis)
  | .port r => .ok (readPortInstr r)
  | .detector =>
    match p.rst, ctl.reportValid || p.evalStrobe with
    | false, true => .ok (.eval p.nowMs)
    | _, _ => .error (.noStrobe .detector)
  | .cellDiff =>
    match p.rst, p.updValid with
    | false, true => .ok (updCase maxLen p)
    | _, _ => .error (.noStrobe .cellDiff)

/-- The decoder of the implementation, with its own `FIELD_MAXLEN`. -/
def decode (b : Block) (ctl : Ctl) (p : Pins) : Except DecodeError Instr := decodeAt Config.fieldMaxLen b ctl p

/-- The blocks of a cycle other than RESET, readers before writers, so that running them one after another
reads what R133 says they read: the ports and EVAL look at `rpt` before FEED writes it. -/
def cycleBlocks : List Block :=
  [.port .magic, .port .key, .port .feedOvr, .port .spindleOvr, .port .feed, .port .spindle, .port .step,
   .port .state, .port .barFeed, .port .barSpindle, .decoder, .detector, .cellDiff, .reassembler]

/-- The operations that run in a cycle (R132, R139). With `rst` = 1 the outputs are still those of any cycle
and RESET then overrides the state (R140, U15), so the other blocks are read with `rst` released and RESET comes
last (log 4). -/
def cycleOpsAt (maxLen : Nat) (ctl : Ctl) (p : Pins) : List Instr :=
  cycleBlocks.filterMap (fun b => (decodeAt maxLen b ctl { p with rst := false }).toOption) ++
    (if p.rst then [.reset] else [])

/-- The operations of a cycle of the implementation. -/
def cycleOps (ctl : Ctl) (p : Pins) : List Instr := cycleOpsAt Config.fieldMaxLen ctl p

/-- The chunk port's value for a string of bytes, rejected unless it is seven bytes long (R46, R59). -/
def chunkOfBytes (bs : List Byte) : Except DecodeError Chunk :=
  if bs.length = Config.chunkLen then .ok (Machine.packLanes 56 bs) else .error (.chunkLength bs.length)

/-! ### The encoder -/

/-- The port values that select an operation, every strobe of another block 0 (R53, R56, R130). EVAL is
encoded by the standalone strobe, since `report_valid` is no port. -/
def encode : Instr → Pins
  | .reset => { Pins.idle with rst := true }
  | .feedMagic c => { Pins.idle with chunkValid := true, chunkData := c }
  | .feedIdle c => { Pins.idle with chunkValid := true, chunkData := c }
  | .feedOverflow c => { Pins.idle with chunkValid := true, chunkData := c }
  | .feedAppend c => { Pins.idle with chunkValid := true, chunkData := c }
  | .feedComplete c => { Pins.idle with chunkValid := true, chunkData := c }
  | .decWcx => { Pins.idle with decCs := false, decAxis := 0 }
  | .decWcy => { Pins.idle with decCs := false, decAxis := 1 }
  | .decWcz => { Pins.idle with decCs := false, decAxis := 2 }
  | .decMcx => { Pins.idle with decCs := true, decAxis := 0 }
  | .decMcy => { Pins.idle with decCs := true, decAxis := 1 }
  | .decMcz => { Pins.idle with decCs := true, decAxis := 2 }
  | .decOor cs => { Pins.idle with decCs := cs, decAxis := 3 }
  | .getMagic => Pins.idle
  | .getKey => Pins.idle
  | .getFeedOvr => Pins.idle
  | .getSpindleOvr => Pins.idle
  | .getFeed => Pins.idle
  | .getSpindle => Pins.idle
  | .getStep => Pins.idle
  | .getState => Pins.idle
  | .eval now => { Pins.idle with evalStrobe := true, nowMs := now }
  | .upd f len chr => { Pins.idle with updValid := true, updField := f, updLen := len, updChr := chr }
  | .updRefused f len => { Pins.idle with updValid := true, updField := f, updLen := len }
  | .barFeed => Pins.idle
  | .barSpindle => Pins.idle

/-! ### Words of the opcode table -/

/-- The ports a word of spec/opcode_table.json is put on. The table's words are over different ports and carry
no tag (log 8): a word of one byte is taken as the decoder select of R53 (`sel = w[2:0]`, the mask 0x7), any
other as the leading bytes of `chunk_data`, the rest 0. The strobes of other blocks are released. -/
def tablePins (base : Pins) (nbits w : Nat) : Pins :=
  if nbits = 8 then { base.released with decCs := w.testBit 2, decAxis := BitVec.ofNat Config.axisW w }
  else { base.released with chunkValid := true, chunkData := BitVec.ofNat 56 (w % 2 ^ nbits) }

/-- The block that reads a word of the opcode table. -/
def tableBlock (nbits : Nat) : Block := if nbits = 8 then .decoder else .reassembler

/-- The control state right after reset (R26). -/
def Ctl.reset : Ctl := { collecting := false, cursor := 0, reportValid := false }

/-- The operation the decoder reads from a word of the opcode table in the control state after reset. -/
def decodeTableWord (nbits w : Nat) : Option Instr :=
  (decode (tableBlock nbits) Ctl.reset (tablePins Pins.idle nbits w)).toOption

end Sys2Proof
end

