-- ==== Sys2Proof/Machine/State.lean ====
section
/-! DEFINITION. The state of the RFE (R12 to R22), grouped by the part that writes it (R29), with the ports beside
it, because the fixed interface `step : State → …` has no input and no output (log 1, log 2). -/

namespace Sys2Proof.Machine

/-- A byte space of R30: `(offset, byte)` pairs in one canonical form (offsets strictly rising, no listed byte
equal to what an unlisted offset reads as). -/
abbrev Memory := List Host.Cell

/-- What an unlisted offset reads as: 0x00, the reset value of every data byte (R26). -/
abbrev Memory.unlisted : Byte := 0

/-- The Frame Reassembler's part (R12 to R17). -/
structure RState where
  /-- `buf`, offsets 0..41 (R12). -/
  buf : Memory
  /-- `cursor` (R13). -/
  cursor : Cursor
  /-- `collecting` (R14). -/
  collecting : Bool
  /-- `rpt`, offsets 0..36 (R15). -/
  rpt : Memory
  /-- `rpt_full` (R16). -/
  rptFull : Bool
  /-- `report_valid` (R17). -/
  reportValid : Bool
deriving DecidableEq, Repr

/-- Detector level 1, the PositionDirtyCache and its time stamp (R18 to R20). -/
structure DState where
  /-- `pdc_valid[k]` (R18). -/
  pdcValid : Vector Bool Config.nSlots
  /-- `pdc_enc[k]` (R19). -/
  pdcEnc : Vector Encoding Config.nSlots
  /-- `last_redraw_ms` (R20). -/
  lastRedrawMs : Millis
deriving DecidableEq, Repr

/-- One entry of the DisplayFieldCache: `dfc_len[f]` (R21) and `dfc_chr[f][i]`, offset `i` (R22). -/
structure FieldEntry where
  len : Nat
  chr : Memory
deriving DecidableEq, Repr

/-- Detector level 2, the DisplayFieldCache (R21, R22). -/
abbrev CState := Vector FieldEntry Config.nDiffFields

/-- What a UPD asks for in one cell (R55). `draw` carries the character; in the other two `op_chr` is 0x00. -/
inductive CellOp where
  | none
  | draw (c : CharCode)
  | blank
deriving DecidableEq, Repr

/-- The level-1 outputs (R102 to R105). -/
structure DetectorOut where
  changed : Vector Bool Config.nSlots
  posDirty : Bool
  refreshDue : Bool
  redraw : Bool
deriving DecidableEq, Repr

/-- The level-2 outputs (R55, R118): the cells with an operation, rising, each with its operation (a cell not
listed has NONE), and `op_any`. -/
structure DiffOut where
  cells : List (Nat × CellOp)
  opAny : Bool
deriving DecidableEq, Repr

/-- The output ports in one cycle (R131). -/
structure Outputs where
  reportValid : Bool
  rptFull : Bool
  report : BitVec 296
  fMagic : Half
  fKey : Byte
  fFeedOvr : Half
  fSpindleOvr : Half
  fFeed : Half
  fSpindle : Half
  fStep : Byte
  fState : Byte
  decSign : Bool
  decMag : Magnitude
  barFeedPct : BitVec 7
  barSpindlePct : BitVec 7
  det : DetectorOut
  diff : DiffOut
deriving DecidableEq, Repr

/-- The machine: the RFE's state `asm`, `gate`, `cells`; and the model's own fields (log 1, log 2): `out`, the
output ports of the cycle just run, read by nothing; `pins`, the input ports of the cycle about to be run;
`script`, the input ports of the cycles after it. -/
structure State where
  asm : RState
  gate : DState
  cells : CState
  out : Outputs
  pins : Pins
  script : List Pins
deriving DecidableEq, Repr

/-- Why `exec` stops. The RFE raises no exception (R146) and `step` never ends in one of these: they belong to an
`exec` called for an operation that R56 does not select in that state and whose stores would fall outside the
storage of R30. -/
inductive Fault where
  /-- FEED.APPEND or FEED.COMPLETE with `cursor + 7 > 42`: `offset` is the last offset it would store to, which
  `buf` does not have. Safe: the hardware never runs the operation in such a state (log 6). -/
  | bufferRange (offset : Nat)
  /-- UPD of a field without a cache entry, or of a length the cache cannot hold. Safe: the hardware runs
  UPD.REFUSED there (log 6). -/
  | cacheRange (field : BitVec 4) (len : Nat)
deriving DecidableEq, Repr

/-- Why `exec` gives no meaning. -/
inductive Refusal where
  /-- An operation without a meaning. No arm of `exec` answers with it. Safe. -/
  | notModelled (mnemonic : String)
deriving DecidableEq, Repr

/-- The reassembler after reset (R26). -/
def RState.reset : RState :=
  { buf := [], cursor := 0, collecting := false, rpt := [], rptFull := false, reportValid := false }

/-- Level 1 after reset (R26): every entry unset. -/
def DState.reset : DState :=
  { pdcValid := Vector.replicate Config.nSlots false, pdcEnc := Vector.replicate Config.nSlots 0, lastRedrawMs := 0 }

/-- The cache entry of a field that has been rendered empty or not at all (R21, R22, R26). -/
def FieldEntry.empty : FieldEntry := { len := 0, chr := [] }

/-- Level 2 after reset (R26): every string empty. -/
def CState.reset : CState := Vector.replicate Config.nDiffFields FieldEntry.empty

/-- The level-1 outputs of a cycle without EVAL (R108). -/
def DetectorOut.quiet : DetectorOut :=
  { changed := Vector.replicate Config.nSlots false, posDirty := false, refreshDue := false, redraw := false }

/-- The level-2 outputs of a cycle without an accepted UPD (R120, R125). -/
def DiffOut.quiet : DiffOut := { cells := [], opAny := false }

/-- Every output port at 0. -/
def Outputs.zero : Outputs :=
  { reportValid := false, rptFull := false, report := 0, fMagic := 0, fKey := 0, fFeedOvr := 0, fSpindleOvr := 0,
    fFeed := 0, fSpindle := 0, fStep := 0, fState := 0, decSign := false, decMag := 0, barFeedPct := 0,
    barSpindlePct := 0, det := DetectorOut.quiet, diff := DiffOut.quiet }

/-- The machine right after reset (R26, R165). The ports are the model's own fields: no strobe, no later input,
outputs at 0 (log 1, log 2). -/
def State.reset : State :=
  { asm := RState.reset, gate := DState.reset, cells := CState.reset, out := Outputs.zero, pins := Pins.idle,
    script := [] }

end Sys2Proof.Machine
end

