-- ==== Sys2Proof/Machine/Ops.lean ====
section
/-! DEFINITION. The named operations over the byte spaces and over each part of the state. The RFE takes no
exception and returns from none (R146, R154, R155), so no such operation is here. -/

namespace Sys2Proof.Machine

/-! ### Byte spaces (R30, R33) -/

/-- The byte at an offset, `MemRead(A, o, 1)` (R33). -/
def Memory.read : Memory → Nat → Byte
  | [], _ => Memory.unlisted
  | (a', b) :: m, a => if a' = a then b else Memory.read m a

/-- Store one byte, keeping the canonical form: storing what an unlisted offset reads as removes the entry. -/
def Memory.write : Memory → Nat → Byte → Memory
  | [], a, b => if b = Memory.unlisted then [] else [(a, b)]
  | (a', b') :: m, a, b =>
    if a < a' then (if b = Memory.unlisted then (a', b') :: m else (a, b) :: (a', b') :: m)
    else if a = a' then (if b = Memory.unlisted then m else (a, b) :: m)
    else (a', b') :: Memory.write m a b

/-- Store consecutive bytes from an offset on, `MemWrite` of R6. -/
def Memory.writeBytes : Memory → Nat → List Byte → Memory
  | m, _, [] => m
  | m, a, b :: bs => Memory.writeBytes (Memory.write m a b) (a + 1) bs

/-- The bytes below an offset: the copy `A[0..n-1]` (R5). -/
def Memory.below (n : Nat) (m : Memory) : Memory := m.filter (fun c => decide (c.1 < n))

/-- The canonical form: offsets strictly rising, nothing listed that reads as an unlisted offset does. -/
def Memory.wf : Memory → Bool
  | [] => true
  | (a, b) :: m => decide (b ≠ Memory.unlisted) && m.all (fun c => decide (a < c.1)) && Memory.wf m

/-- Every listed offset is below `n`: the space has `n` bytes. -/
def Memory.within (n : Nat) (m : Memory) : Bool := m.all (fun c => decide (c.1 < n))

/-- The `report` port: `rpt[o]` in bits `[8o+7 : 8o]` (R34, R131). -/
def reportPort (rpt : Memory) : BitVec 296 := packLanes 296 ((List.range Config.reportLen).map rpt.read)

/-! ### The reassembler's part (R67 to R72, R79) -/

/-- FEED.MAGIC (R67): an all-zero buffer with the chunk at offsets 0..6. -/
def RState.startFrame (c : Chunk) (r : RState) : RState :=
  { r with buf := Memory.writeBytes [] 0 (chunkBytes c), cursor := BitVec.ofNat _ Config.chunkLen, collecting := true, reportValid := false }

/-- FEED.IDLE (R68) and a cycle without a chunk (R79): nothing changes, `report_valid` ends. -/
def RState.hold (r : RState) : RState := { r with reportValid := false }

/-- FEED.OVERFLOW (R69). -/
def RState.dropFrame (r : RState) : RState := { r with collecting := false, reportValid := false }

/-- FEED.APPEND (R70): the chunk at `cursor .. cursor+6`. -/
def RState.append (c : Chunk) (r : RState) : RState :=
  { r with
    buf := Memory.writeBytes r.buf r.cursor.toNat (chunkBytes c)
    cursor := r.cursor + BitVec.ofNat _ Config.chunkLen
    reportValid := false }

/-- The hand-off of R72: the report is read from the buffer after the append (R43 (a)). -/
def RState.handOff (r : RState) : RState :=
  { r with collecting := false, rpt := r.buf.below Config.reportLen, rptFull := true, reportValid := true }

/-- FEED.COMPLETE (R71, R72). -/
def RState.complete (c : Chunk) (r : RState) : RState := (r.append c).handOff

/-- Install what a storing FEED case makes of the reassembler, where the seven stored offsets exist (R30). -/
def State.storing (s : State) (r : RState) : Host.Outcome State Fault Refusal :=
  if s.asm.cursor.toNat + Config.chunkLen ≤ Config.bufCap then .next { s with asm := r }
  else .fault (.bufferRange (s.asm.cursor.toNat + (Config.chunkLen - 1)))

/-- The control state R56 selects by. -/
def State.ctl (s : State) : Ctl :=
  { collecting := s.asm.collecting, cursor := s.asm.cursor, reportValid := s.asm.reportValid }

/-! ### Reset (R165) -/

/-- Every state element at its value of R26. The ports are not state: they stay. -/
def State.clear (s : State) : State :=
  { s with asm := RState.reset, gate := DState.reset, cells := CState.reset }

end Sys2Proof.Machine
end

