-- ==== Sys2Proof/Machine/Operands.lean ====
section
/-! DEFINITION. How operands are assembled from the bytes of a report and of a string (R33, R57, R117). Nothing
is sign-extended. -/

namespace Sys2Proof.Machine

/-- `u8(A, o)` (R33). -/
def u8 (m : Memory) (o : Nat) : Byte := m.read o

/-- `u16le(A, o) = {A[o+1], A[o]}` (R33). -/
def u16le (m : Memory) (o : Nat) : Half := m.read (o + 1) ++ m.read o

/-- `int_k`, the integer part of slot `k` (R48, R57). -/
def intPart (m : Memory) (k : Nat) : Half := u16le m (Config.slotBase + Config.slotLen * k)

/-- `fld_k`, the fractional field of slot `k` (R48, R57). -/
def fracField (m : Memory) (k : Nat) : Half := u16le m (Config.slotBase + 2 + Config.slotLen * k)

/-- `S`, the sign (R49). -/
def fracSign (fld : Half) : Bool := fld.getLsbD Config.signBit

/-- `F = fld & 0x7FFF` (R49). -/
def fracNum (fld : Half) : Half := fld &&& Config.fracMask

/-- `mag = int × 10000 + F` in `MAG_W` bits (R57, R82); exact, by R90. -/
def magnitude (int fld : Half) : Magnitude :=
  BitVec.ofNat Config.magW (int.toNat * Config.scale + (fracNum fld).toNat)

/-- `enc_k = {fld_k, int_k}` (R50, R101). -/
def slotEnc (m : Memory) (k : Nat) : Encoding := fracField m k ++ intPart m k

/-- The six packed raw encodings of a report (R101). -/
def encodings (m : Memory) : Vector Encoding Config.nSlots := Vector.ofFn fun k => slotEnc m k

/-- The slot of a coordinate system and an axis, `3 × cs + axis` (R48, R81). -/
def slotNumber (cs : Bool) (axis : AxisIndex) : Nat := 3 * cs.toNat + axis.toNat

/-- `elapsed`, the borrow discarded (R104). -/
def elapsed (now last : Millis) : Millis := now - last

/-- Character `i` of a string on the port, counted from the left (R61). -/
def chrAt (chr : List CharCode) (i : Nat) : CharCode := chr.getD i 0

/-- The `upd_chr` port for a `FIELD_MAXLEN` of `maxLen` (R61, R130): character `i` in bits `[8i+7 : 8i]`. -/
def updChrPort (maxLen : Nat) (chr : List CharCode) : BitVec (Config.charW * maxLen) :=
  packLanes _ ((List.range maxLen).map (chrAt chr))

/-- `new_at(p) = new[Ln − 1 − p]`, cell `p` counted from the right (R117). -/
def newAt (chr : List CharCode) (len p : Nat) : CharCode := chrAt chr (len - 1 - p)

/-- `old_at(p) = old[Lo − 1 − p]` (R117). -/
def oldAt (e : FieldEntry) (p : Nat) : CharCode := e.chr.read (e.len - 1 - p)

/-- The cache entry that holds a string: its characters at `i < len`, 0x00 beyond (R119). -/
def FieldEntry.ofString (len : Nat) (chr : List CharCode) : FieldEntry :=
  { len := len, chr := Memory.writeBytes [] 0 ((List.range len).map (chrAt chr)) }

end Sys2Proof.Machine
end

