-- ==== Sys2Proof/Machine/Flags.lean ====
section
/-! DEFINITION. The one-bit results and the per-cell results that operations compute (R23, R102 to R105, R118),
and the bar clamp (R123, R124). -/

namespace Sys2Proof.Machine

/-- `changed[k]` for the six lanes (R102). -/
def changedLanes (d : DState) (enc : Vector Encoding Config.nSlots) : Vector Bool Config.nSlots :=
  Vector.ofFn fun k => !d.pdcValid[k] || d.pdcEnc[k] != enc[k]

/-- `pos_dirty`, the OR of the lanes (R103). -/
def posDirtyOf (changed : Vector Bool Config.nSlots) : Bool :=
  (List.finRange Config.nSlots).any fun k => changed[k]

/-- `refresh_due` (R104): strictly more than 500 ms (C5). -/
def refreshDueAt (now last : Millis) : Bool := decide (Config.refreshMs < (elapsed now last).toNat)

/-- The outputs of an EVAL (R102 to R105). -/
def evalOut (d : DState) (enc : Vector Encoding Config.nSlots) (now : Millis) : DetectorOut :=
  { changed := changedLanes d enc
    posDirty := posDirtyOf (changedLanes d enc)
    refreshDue := refreshDueAt now d.lastRedrawMs
    redraw := posDirtyOf (changedLanes d enc) || refreshDueAt now d.lastRedrawMs }

/-- What an EVAL writes (R106). -/
def DState.afterEval (d : DState) (enc : Vector Encoding Config.nSlots) (now : Millis) : DState :=
  { pdcValid := Vector.replicate Config.nSlots true
    pdcEnc := enc
    lastRedrawMs := if (evalOut d enc now).redraw then now else d.lastRedrawMs }

/-- The operation of cell `p` when the string `chr` of length `len` replaces the entry `e` (R118). -/
def cellOpAt (e : FieldEntry) (len : Nat) (chr : List CharCode) (p : Nat) : CellOp :=
  if p < len ∧ p < e.len then
    (if newAt chr len p = oldAt e p then .none else .draw (newAt chr len p))
  else if p < len then .draw (newAt chr len p)
  else if p < e.len then .blank
  else .none

/-- The results of a UPD over the cells `0 .. maxLen − 1` (R118). -/
def diffOut (maxLen : Nat) (e : FieldEntry) (len : Nat) (chr : List CharCode) : DiffOut :=
  { cells := (List.range maxLen).filterMap fun p =>
      if cellOpAt e len chr p = .none then Option.none else some (p, cellOpAt e len chr p)
    opAny := (List.range maxLen).any fun p => decide (cellOpAt e len chr p ≠ .none) }

/-- What the ports show for cell `p`: NONE where no operation is listed (R55). -/
def cellShown (cells : List (Nat × CellOp)) (p : Nat) : CellOp :=
  match cells.find? (fun c => c.1 == p) with
  | some c => c.2
  | Option.none => .none

/-- `op_kind[p]` (R55). -/
def CellOp.kind : CellOp → BitVec 2
  | .none => 0b00
  | .draw _ => 0b01
  | .blank => 0b10

/-- `op_chr[p]` (R55). -/
def CellOp.chr : CellOp → CharCode
  | .none => 0
  | .draw c => c
  | .blank => 0

/-- The `op_kind` port for a `FIELD_MAXLEN` of `maxLen` (R55, R131): cell `p` in bits `[2p+1 : 2p]`. -/
def opKindPort (maxLen : Nat) (cells : List (Nat × CellOp)) : BitVec (2 * maxLen) :=
  packLanes _ ((List.range maxLen).map fun p => (cellShown cells p).kind)

/-- The `op_chr` port for a `FIELD_MAXLEN` of `maxLen` (R55, R131): cell `p` in bits `[8p+7 : 8p]`. -/
def opChrPort (maxLen : Nat) (cells : List (Nat × CellOp)) : BitVec (Config.charW * maxLen) :=
  packLanes _ ((List.range maxLen).map fun p => (cellShown cells p).chr)

/-- `op_kind` (R131), `2 × FIELD_MAXLEN` bits. -/
def Outputs.opKind (o : Outputs) : BitVec (2 * Config.fieldMaxLen) := opKindPort Config.fieldMaxLen o.diff.cells

/-- `op_chr` (R131), `8 × FIELD_MAXLEN` bits. -/
def Outputs.opChr (o : Outputs) : BitVec (Config.charW * Config.fieldMaxLen) :=
  opChrPort Config.fieldMaxLen o.diff.cells

/-- A bar percentage: `min(v, 100)` in 7 bits (R123, R124). -/
def barPct (v : Half) : BitVec 7 := BitVec.ofNat 7 (min v.toNat Config.barMax)

end Sys2Proof.Machine
end

