-- ==== Sys2Proof/Machine/CellDiff.lean ====
section
/-! DEFINITION. The meanings of UPD, UPD.REFUSED (R115 to R120) and BAR.* (R123, R124). -/

namespace Sys2Proof.Machine

/-- UPD for a `FIELD_MAXLEN` of `maxLen` (R119): the cell operations are shown, the cached string is replaced.
It stops where R30 gives no storage: no entry of that number, or a string the entry cannot hold (log 6). -/
def updateField (maxLen : Nat) (field : BitVec 4) (len : Nat) (chr : List CharCode) (s : State) :
    Host.Outcome State Fault Refusal :=
  if h : field.toNat < Config.nDiffFields ∧ len ≤ maxLen then
    .next { s with
      cells := s.cells.set field.toNat (FieldEntry.ofString len chr) h.1
      out := { s.out with diff := diffOut maxLen (s.cells[field.toNat]'h.1) len chr } }
  else .fault (.cacheRange field len)

/-- UPD (R119). -/
def execUpd (field : BitVec 4) (len : Nat) (chr : List CharCode) (s : State) : Host.Outcome State Fault Refusal :=
  updateField Config.fieldMaxLen field len chr s

/-- UPD.REFUSED (R120): no state changes, no cell has an operation. -/
def execUpdRefused (_field : BitVec 4) (_len : Nat) (s : State) : Host.Outcome State Fault Refusal :=
  .next { s with out := { s.out with diff := DiffOut.quiet } }

/-- BAR.FEED (R123): the feed-rate override, clamped. -/
def execBarFeed (s : State) : Host.Outcome State Fault Refusal :=
  .next { s with out := { s.out with barFeedPct := barPct (u16le s.asm.rpt 27) } }

/-- BAR.SPINDLE (R124): the spindle-speed override, clamped. -/
def execBarSpindle (s : State) : Host.Outcome State Fault Refusal :=
  .next { s with out := { s.out with barSpindlePct := barPct (u16le s.asm.rpt 29) } }

end Sys2Proof.Machine
end

