-- ==== Sys2Proof/Machine/Decoder.lean ====
section
/-! DEFINITION. The meanings of DEC.* (R80 to R90) and GET.* (R92 to R99): no state is written, each shows its
result on its own output port. -/

namespace Sys2Proof.Machine

/-- Show a decoded axis on `dec_sign` and `dec_mag`. -/
def State.showAxis (s : State) (sign : Bool) (mag : Magnitude) : State :=
  { s with out := { s.out with decSign := sign, decMag := mag } }

/-- Decode slot `k` of the held report (R82): the sign stays apart from the magnitude, so -0 is kept. -/
def State.showSlot (s : State) (k : Nat) : State :=
  s.showAxis (fracSign (fracField s.asm.rpt k)) (magnitude (intPart s.asm.rpt k) (fracField s.asm.rpt k))

/-- DEC.WCX (R83): slot 0. -/
def execDecWcx (s : State) : Host.Outcome State Fault Refusal := .next (s.showSlot 0)

/-- DEC.WCY (R84): slot 1. -/
def execDecWcy (s : State) : Host.Outcome State Fault Refusal := .next (s.showSlot 1)

/-- DEC.WCZ (R85): slot 2. -/
def execDecWcz (s : State) : Host.Outcome State Fault Refusal := .next (s.showSlot 2)

/-- DEC.MCX (R86): slot 3. -/
def execDecMcx (s : State) : Host.Outcome State Fault Refusal := .next (s.showSlot 3)

/-- DEC.MCY (R87): slot 4. -/
def execDecMcy (s : State) : Host.Outcome State Fault Refusal := .next (s.showSlot 4)

/-- DEC.MCZ (R88): slot 5. -/
def execDecMcz (s : State) : Host.Outcome State Fault Refusal := .next (s.showSlot 5)

/-- DEC.OOR (R89): positive zero, whatever `dec_cs` and the report are. -/
def execDecOor (_cs : Bool) (s : State) : Host.Outcome State Fault Refusal := .next (s.showAxis false 0)

/-- GET.MAGIC (R92). -/
def execGetMagic (s : State) : Host.Outcome State Fault Refusal :=
  .next { s with out := { s.out with fMagic := u16le s.asm.rpt 0 } }

/-- GET.KEY (R93). -/
def execGetKey (s : State) : Host.Outcome State Fault Refusal :=
  .next { s with out := { s.out with fKey := u8 s.asm.rpt 2 } }

/-- GET.FEED_OVR (R94). -/
def execGetFeedOvr (s : State) : Host.Outcome State Fault Refusal :=
  .next { s with out := { s.out with fFeedOvr := u16le s.asm.rpt 27 } }

/-- GET.SPINDLE_OVR (R95). -/
def execGetSpindleOvr (s : State) : Host.Outcome State Fault Refusal :=
  .next { s with out := { s.out with fSpindleOvr := u16le s.asm.rpt 29 } }

/-- GET.FEED (R96). -/
def execGetFeed (s : State) : Host.Outcome State Fault Refusal :=
  .next { s with out := { s.out with fFeed := u16le s.asm.rpt 31 } }

/-- GET.SPINDLE (R97). -/
def execGetSpindle (s : State) : Host.Outcome State Fault Refusal :=
  .next { s with out := { s.out with fSpindle := u16le s.asm.rpt 33 } }

/-- GET.STEP (R98). -/
def execGetStep (s : State) : Host.Outcome State Fault Refusal :=
  .next { s with out := { s.out with fStep := u8 s.asm.rpt 35 } }

/-- GET.STATE (R99). -/
def execGetState (s : State) : Host.Outcome State Fault Refusal :=
  .next { s with out := { s.out with fState := u8 s.asm.rpt 36 } }

end Sys2Proof.Machine
end

