-- ==== Sys2Proof/Machine/Detector.lean ====
section
/-! DEFINITION. The meaning of EVAL, the dirty gate (R100 to R107). -/

namespace Sys2Proof.Machine

/-- EVAL (R107): the six encodings come from the held report, the time from `now_ms` of the cycle. -/
def execEval (now : Millis) (s : State) : Host.Outcome State Fault Refusal :=
  .next { s with
    gate := s.gate.afterEval (encodings s.asm.rpt) now
    out := { s.out with det := evalOut s.gate (encodings s.asm.rpt) now } }

end Sys2Proof.Machine
end

