-- ==== Sys2Proof/Machine/Reassembler.lean ====
section
/-! DEFINITION. The meanings of FEED.* (R65 to R72). Each is the rule's own effect; which of them runs is the
decoder's business (`feedCase`). -/

namespace Sys2Proof.Machine

/-- FEED.MAGIC (R67), in any state. -/
def execFeedMagic (chunk : Chunk) (s : State) : Host.Outcome State Fault Refusal :=
  .next { s with asm := s.asm.startFrame chunk }

/-- FEED.IDLE (R68): the chunk is dropped. -/
def execFeedIdle (_chunk : Chunk) (s : State) : Host.Outcome State Fault Refusal :=
  .next { s with asm := s.asm.hold }

/-- FEED.OVERFLOW (R69): the chunk and the frame are dropped. Kept although R75 proves it dead. -/
def execFeedOverflow (_chunk : Chunk) (s : State) : Host.Outcome State Fault Refusal :=
  .next { s with asm := s.asm.dropFrame }

/-- FEED.APPEND (R70). -/
def execFeedAppend (chunk : Chunk) (s : State) : Host.Outcome State Fault Refusal :=
  s.storing (s.asm.append chunk)

/-- FEED.COMPLETE (R71) with the hand-off (R72). -/
def execFeedComplete (chunk : Chunk) (s : State) : Host.Outcome State Fault Refusal :=
  s.storing (s.asm.complete chunk)

end Sys2Proof.Machine
end

