-- ==== Sys2Proof/Machine/System.lean ====
section
/-! DEFINITION. The meaning of RESET (R165). -/

namespace Sys2Proof.Machine

/-- RESET (R165): every state element at its value of R26, whatever the state was. -/
def execReset (s : State) : Host.Outcome State Fault Refusal := .next s.clear

end Sys2Proof.Machine
end

