-- ==== Sys2Proof/Machine/Dispatch.lean ====
section
/-! DEFINITION. The dispatch: one arm per operation of R56. -/

namespace Sys2Proof.Machine

def exec (i : Instr) (s : State) : Host.Outcome State Fault Refusal :=
  match i with
  | .reset => Sys2Proof.Machine.execReset s
  | .feedMagic chunk => Sys2Proof.Machine.execFeedMagic chunk s
  | .feedIdle chunk => Sys2Proof.Machine.execFeedIdle chunk s
  | .feedOverflow chunk => Sys2Proof.Machine.execFeedOverflow chunk s
  | .feedAppend chunk => Sys2Proof.Machine.execFeedAppend chunk s
  | .feedComplete chunk => Sys2Proof.Machine.execFeedComplete chunk s
  | .decWcx => Sys2Proof.Machine.execDecWcx s
  | .decWcy => Sys2Proof.Machine.execDecWcy s
  | .decWcz => Sys2Proof.Machine.execDecWcz s
  | .decMcx => Sys2Proof.Machine.execDecMcx s
  | .decMcy => Sys2Proof.Machine.execDecMcy s
  | .decMcz => Sys2Proof.Machine.execDecMcz s
  | .decOor cs => Sys2Proof.Machine.execDecOor cs s
  | .getMagic => Sys2Proof.Machine.execGetMagic s
  | .getKey => Sys2Proof.Machine.execGetKey s
  | .getFeedOvr => Sys2Proof.Machine.execGetFeedOvr s
  | .getSpindleOvr => Sys2Proof.Machine.execGetSpindleOvr s
  | .getFeed => Sys2Proof.Machine.execGetFeed s
  | .getSpindle => Sys2Proof.Machine.execGetSpindle s
  | .getStep => Sys2Proof.Machine.execGetStep s
  | .getState => Sys2Proof.Machine.execGetState s
  | .eval now => Sys2Proof.Machine.execEval now s
  | .upd field len chr => Sys2Proof.Machine.execUpd field len chr s
  | .updRefused field len => Sys2Proof.Machine.execUpdRefused field len s
  | .barFeed => Sys2Proof.Machine.execBarFeed s
  | .barSpindle => Sys2Proof.Machine.execBarSpindle s

end Sys2Proof.Machine
end

