-- ==== Sys2Proof/Machine/Cycle.lean ====
section
/-! DEFINITION. What a clock cycle adds around the operations it runs (R7, R132 to R134). -/

namespace Sys2Proof.Machine

/-- The start of a cycle: the registered outputs show the state, the ports of strobed operations are 0 until
their operation runs (R108, R125, R131), and `report_valid` ends unless a FEED.COMPLETE of this cycle raises it
again (R72, R79). -/
def State.beginCycle (s : State) : State :=
  { s with
    asm := s.asm.hold
    out := { Outputs.zero with
      reportValid := s.asm.reportValid, rptFull := s.asm.rptFull, report := reportPort s.asm.rpt } }

/-- Run operations one after another, up to the first that stops. -/
def runOps : List Instr → State → Host.Outcome State Fault Refusal
  | [], s => .next s
  | i :: is, s =>
    match exec i s with
    | .next t => runOps is t
    | .fault f => .fault f
    | .refused r => .refused r

/-- The end of a cycle: the next inputs arrive. When none are left the strobes fall and the other ports hold
(R167 (2), log 1). -/
def State.endCycle (s : State) : State :=
  match s.script with
  | [] => { s with pins := s.pins.released }
  | p :: ps => { s with pins := p, script := ps }

/-- One cycle: the operations that R56 selects from the ports and from the control state before the edge. -/
def runCycle (s : State) : Host.Outcome State Fault Refusal :=
  match runOps (cycleOps s.ctl s.pins) s.beginCycle with
  | .next t => .next t.endCycle
  | .fault f => .fault f
  | .refused r => .refused r

end Sys2Proof.Machine
end

