-- ==== Sys2Proof/Machine/Step.lean ====
section
/-! DEFINITION. The step: one clock cycle on the inputs that `pins` holds (R7, R132), and the placing of a word
of the opcode table on those inputs. -/

namespace Sys2Proof.Machine

/-- One clock cycle (R132). -/
def step (s : State) : Host.Outcome State Fault Refusal := runCycle s

/-- `s` with the instruction of a table word on the input ports, the place the next cycle reads its operations
from: the strobe or select of its block is set, the strobes of the others are released. -/
def State.withFetchWord (s : State) (nbits w : Nat) : State :=
  { s with pins := tablePins s.pins nbits w }

end Sys2Proof.Machine
end

