-- ==== Sys2Proof/Machine/Composition.lean ====
section
/-! DEFINITION. The composed machine as R132 writes it: `next` as three parts acting side by side on disjoint
state, `out` as a function of state and inputs, every read of a cycle seeing the state before the edge (R133).
Below it the four blocks of R141, each a function with explicit state.
`step` does not use this file: that the two agree is a statement for the provers. -/

namespace Sys2Proof.Machine

/-- `FEED(chunk)` (R65). -/
def RState.feed (c : Chunk) (r : RState) : RState :=
  if isMagic c then r.startFrame c
  else if r.collecting = false then r.hold
  else if Config.bufCap < r.cursor.toNat + Config.chunkLen then r.dropFrame
  else if r.cursor.toNat + Config.chunkLen < Config.reportLen then r.append c
  else r.complete c

/-- The reassembler part of `next` (R65 to R72, R79). -/
def RState.next (r : RState) (p : Pins) : RState :=
  if p.rst then RState.reset else if p.chunkValid then r.feed p.chunkData else r.hold

/-- The strobe of EVAL (R56, R137): `report_valid`, or the standalone strobe. -/
def evalStrobed (r : RState) (p : Pins) : Bool := r.reportValid || p.evalStrobe

/-- The level-1 part of `next` (R107, R108). -/
def DState.next (d : DState) (r : RState) (p : Pins) : DState :=
  if p.rst then DState.reset
  else if evalStrobed r p then d.afterEval (encodings r.rpt) p.nowMs else d

/-- An accepted UPD (R56, R115). -/
abbrev updAccepted (p : Pins) : Prop :=
  p.updValid = true ∧ p.updField.toNat < Config.nDiffFields ∧ p.updLen ≤ Config.fieldMaxLen

/-- `upd : CState → Fid → Str → CState × CellOps` (R141), UPD or UPD.REFUSED (R119, R120), for a `FIELD_MAXLEN` of
`maxLen`. -/
def updBlock (maxLen : Nat) (fc : CState) (field : BitVec 4) (len : Nat) (chr : List CharCode) : CState × DiffOut :=
  if h : field.toNat < Config.nDiffFields ∧ len ≤ maxLen then
    (fc.set field.toNat (FieldEntry.ofString len chr) h.1, diffOut maxLen (fc[field.toNat]'h.1) len chr)
  else (fc, DiffOut.quiet)

/-- The level-2 part of `next` (R119, R120, R125). -/
def CState.next (fc : CState) (p : Pins) : CState :=
  if p.rst then CState.reset
  else if p.updValid then (updBlock Config.fieldMaxLen fc p.updField p.updLen p.updChr).1 else fc

/-- `decodeAxis(report, cs, axis)` (R80, R81, R89), on the port's axis index. -/
def decodeAxis (rpt : Memory) (cs : Bool) (axis : AxisIndex) : Bool × Magnitude :=
  if axis.toNat ≤ 2 then
    (fracSign (fracField rpt (slotNumber cs axis)),
     magnitude (intPart rpt (slotNumber cs axis)) (fracField rpt (slotNumber cs axis)))
  else (false, 0)

/-- The level-2 outputs (R118, R120, R125). -/
def CState.shown (fc : CState) (p : Pins) : DiffOut :=
  if p.updValid then (updBlock Config.fieldMaxLen fc p.updField p.updLen p.updChr).2 else DiffOut.quiet

/-- `out(s, in)` (R131, R132): the output ports of the cycle, `rst` or not (R140). -/
def outputsOf (s : State) (p : Pins) : Outputs :=
  { reportValid := s.asm.reportValid
    rptFull := s.asm.rptFull
    report := reportPort s.asm.rpt
    fMagic := u16le s.asm.rpt 0
    fKey := u8 s.asm.rpt 2
    fFeedOvr := u16le s.asm.rpt 27
    fSpindleOvr := u16le s.asm.rpt 29
    fFeed := u16le s.asm.rpt 31
    fSpindle := u16le s.asm.rpt 33
    fStep := u8 s.asm.rpt 35
    fState := u8 s.asm.rpt 36
    decSign := (decodeAxis s.asm.rpt p.decCs p.decAxis).1
    decMag := (decodeAxis s.asm.rpt p.decCs p.decAxis).2
    barFeedPct := barPct (u16le s.asm.rpt 27)
    barSpindlePct := barPct (u16le s.asm.rpt 29)
    det := if evalStrobed s.asm p then evalOut s.gate (encodings s.asm.rpt) p.nowMs else DetectorOut.quiet
    diff := s.cells.shown p }

/-! ### The other blocks apart (R141) -/

/-- What the Frame Reassembler keeps for itself, the state that `feed` is given and gives back (R141). -/
structure Assembler where
  buf : Memory
  cursor : Cursor
  collecting : Bool
deriving DecidableEq, Repr

/-- The reassembler's own state in the composed machine. -/
def RState.assembler (r : RState) : Assembler := { buf := r.buf, cursor := r.cursor, collecting := r.collecting }

/-- A reassembler that has handed no report over. -/
def RState.ofAssembler (a : Assembler) : RState :=
  { RState.reset with buf := a.buf, cursor := a.cursor, collecting := a.collecting }

/-- `feed : RState → Chunk → RState × Option Report` (R141): the result of R65, `none` or `some(report)`. -/
def feedBlock (a : Assembler) (c : Chunk) : Assembler × Option Memory :=
  ((RState.ofAssembler a).feed c |>.assembler,
   if ((RState.ofAssembler a).feed c).reportValid then some ((RState.ofAssembler a).feed c).rpt else none)

/-- `decodeAxis : Report → Bit → Fin 4 → Bit × Nat` (R141). -/
def decodeBlock (rpt : Memory) (cs : Bool) (axis : Fin 4) : Bool × Nat :=
  ((decodeAxis rpt cs (BitVec.ofNat _ axis)).1, (decodeAxis rpt cs (BitVec.ofNat _ axis)).2.toNat)

/-- `eval : DState → (Fin 6 → Word32) → Word32 → DState × EvalOut` (R141). -/
def evalBlock (d : DState) (enc : Vector Encoding Config.nSlots) (now : Millis) : DState × DetectorOut :=
  (d.afterEval enc now, evalOut d enc now)

end Sys2Proof.Machine
end

