-- ==== Sys2Proof/Safety.lean ====
section
/-! DEFINITION. The terms that statements use: the invariants of R28, what it is for states to agree, numbers read
byte by byte, and runs over given inputs. -/

namespace Sys2Proof.Machine

/-! ### Invariants (R28, R74) -/

/-- The reassembler's invariants: canonical byte spaces of 42 and 37 bytes, R28 (a) to (e), and that the machine
is in IDLE in a cycle with `report_valid` = 1 (R139). -/
structure RInv (r : RState) : Prop where
  bufWf : r.buf.wf = true
  bufWithin : r.buf.within Config.bufCap = true
  rptWf : r.rpt.wf = true
  rptWithin : r.rpt.within Config.reportLen = true
  cursorStops : r.cursor.toNat ∈ [0, 7, 14, 21, 28, 35, 42]
  collectingCursor : r.collecting = true → r.cursor.toNat ∈ [7, 14, 21, 28, 35]
  collectingMagic : r.collecting = true → r.buf.read 0 = 0xFE ∧ r.buf.read 1 = 0xFD
  fullMagic : r.rptFull = true → r.rpt.read 0 = 0xFE ∧ r.rpt.read 1 = 0xFD
  validFull : r.reportValid = true → r.rptFull = true
  validIdle : r.reportValid = true → r.collecting = false

/-- Level 1: the six valid bits are always equal (R28 (f)). -/
structure DInv (d : DState) : Prop where
  validSame : ∀ j k : Fin Config.nSlots, d.pdcValid[j] = d.pdcValid[k]

/-- Level 2: every length is within the bound (R28 (g)) and every entry's characters are a canonical space of
`FIELD_MAXLEN` bytes. -/
structure CInv (fc : CState) : Prop where
  lenLe : ∀ f : Fin Config.nDiffFields, fc[f].len ≤ Config.fieldMaxLen
  chrWf : ∀ f : Fin Config.nDiffFields, fc[f].chr.wf = true
  chrWithin : ∀ f : Fin Config.nDiffFields, fc[f].chr.within Config.fieldMaxLen = true

/-- The invariants of the machine (R28). -/
structure Inv (s : State) : Prop where
  asm : RInv s.asm
  gate : DInv s.gate
  cells : CInv s.cells

/-! ### Frames -/

/-- Nothing the RFE holds is changed; every byte of both byte spaces reads as before. -/
structure SameState (s t : State) : Prop where
  asm : t.asm = s.asm
  gate : t.gate = s.gate
  cells : t.cells = s.cells
  bufBytes : ∀ a, t.asm.buf.read a = s.asm.buf.read a
  rptBytes : ∀ a, t.asm.rpt.read a = s.asm.rpt.read a

/-- The input ports, now and to come, are unchanged. -/
structure SameWires (s t : State) : Prop where
  pins : t.pins = s.pins
  script : t.script = s.script

/-- Both detectors, the output ports and the input ports are unchanged: what a FEED leaves alone. -/
structure OnlyAsm (s t : State) : Prop where
  gate : t.gate = s.gate
  cells : t.cells = s.cells
  out : t.out = s.out
  wires : SameWires s t

/-! ### Numbers read byte by byte -/

/-- `A[o] + 256 × A[o+1]` (R33). -/
def num16 (m : Memory) (o : Nat) : Nat := (m.read o).toNat + 256 * (m.read (o + 1)).toNat

/-- The packed raw encoding of slot `k` as the sum of R50. -/
def encNum (m : Memory) (k : Nat) : Nat :=
  (m.read (3 + 4 * k)).toNat + 2 ^ 8 * (m.read (4 + 4 * k)).toNat + 2 ^ 16 * (m.read (5 + 4 * k)).toNat +
    2 ^ 24 * (m.read (6 + 4 * k)).toNat

/-- `(now − last) mod 2^32` (R104). -/
def elapsedNum (now last : Millis) : Nat := (now.toNat + 2 ^ 32 - last.toNat) % 2 ^ 32

/-! ### Selection (R56) -/

/-- The block of `i` runs exactly `i` in the cycles that meet `cond`, and in no other. -/
def SelectedWhen (i : Instr) (cond : Ctl → Pins → Prop) : Prop :=
  ∀ (ctl : Ctl) (p : Pins), decode i.block ctl p = .ok i ↔ cond ctl p

/-! ### What the display shows (R117, R118) -/

/-- The character in cell `p` of a field that shows a string of length `len`, right-aligned; `none` is a blank cell. -/
def displayed (len : Nat) (chr : Nat → CharCode) (p : Nat) : Option CharCode :=
  if p < len then some (chr (len - 1 - p)) else none

/-- What a cell shows after a cell operation (R55). -/
def CellOp.applyTo (old : Option CharCode) : CellOp → Option CharCode
  | .none => old
  | .draw c => some c
  | .blank => Option.none

/-- Cell operations that turn the shown string `old` into the string `new`. -/
def TurnsInto (ops : List (Nat × CellOp)) (old new : Nat → Option CharCode) : Prop :=
  ∀ p, (cellShown ops p).applyTo (old p) = new p

/-! ### Runs over given inputs -/

/-- One cycle after another, each on the given inputs. -/
def runInputs : List Pins → State → Host.Outcome State Fault Refusal
  | [], s => .next s
  | p :: ps, s =>
    match step { s with pins := p } with
    | .next t => runInputs ps t
    | .fault f => .fault f
    | .refused r => .refused r

/-- The chunks presented in a run, in order. -/
def chunksOf (ps : List Pins) : List Chunk := (ps.filter (·.chunkValid)).map (·.chunkData)

/-- Nothing resets the machine in a run. -/
def NoReset (ps : List Pins) : Prop := ∀ p ∈ ps, p.rst = false

/-! ### Hidden state (R25) -/

/-- Two states that differ at most in what R25 calls hidden: `buf` from offset 37 on; all of `buf`, and `cursor`,
while not collecting; the encodings of unset entries; characters at and beyond a string's length; and the
model's record of outputs of the cycle before. -/
structure HiddenOnly (s t : State) : Prop where
  collecting : t.asm.collecting = s.asm.collecting
  cursor : s.asm.collecting = true → t.asm.cursor = s.asm.cursor
  bufBytes : s.asm.collecting = true → ∀ a < Config.reportLen, t.asm.buf.read a = s.asm.buf.read a
  rptBytes : ∀ a, t.asm.rpt.read a = s.asm.rpt.read a
  rptFull : t.asm.rptFull = s.asm.rptFull
  reportValid : t.asm.reportValid = s.asm.reportValid
  pdcValid : t.gate.pdcValid = s.gate.pdcValid
  pdcEnc : ∀ k : Fin Config.nSlots, s.gate.pdcValid[k] = true → t.gate.pdcEnc[k] = s.gate.pdcEnc[k]
  lastRedrawMs : t.gate.lastRedrawMs = s.gate.lastRedrawMs
  lens : ∀ f : Fin Config.nDiffFields, t.cells[f].len = s.cells[f].len
  chars : ∀ f : Fin Config.nDiffFields, ∀ i < s.cells[f].len, t.cells[f].chr.read i = s.cells[f].chr.read i
  wires : SameWires s t

end Sys2Proof.Machine
end

