-- ==== Sys2Proof/Certificates/Slice0/Obligations.lean ====
section
/-! DEFINITION. The statements for the provers. Those about one operation are stated of `exec`; those about a
cycle of `step`. Each docstring names the rule, or the spec's sentence, it formalises. -/

open Sys2Proof Sys2Proof.Machine

/-! ### RESET -/

/-- R165: RESET is selected by `rst` alone; from any state it completes and every state element has the value of
the table of R26 (the spec's own values, its decision D9); the ports are not state. -/
def Obligations.ResetGivesEveryElementItsResetValue : Prop :=
  SelectedWhen .reset (fun _ p => p.rst = true) ∧ ∀ s : State, ∃ t, exec .reset s = .next t ∧
    (∀ a, t.asm.buf.read a = 0) ∧ t.asm.cursor = 0 ∧ t.asm.collecting = false ∧ (∀ a, t.asm.rpt.read a = 0) ∧
    t.asm.rptFull = false ∧ t.asm.reportValid = false ∧
    (∀ k : Fin 6, t.gate.pdcValid[k] = false ∧ t.gate.pdcEnc[k] = 0) ∧ t.gate.lastRedrawMs = 0 ∧
    (∀ f : Fin 8, t.cells[f].len = 0 ∧ ∀ i, t.cells[f].chr.read i = 0) ∧
    t.out = s.out ∧ SameWires s t

/-! ### FEED -/

/-- R67. No premise: the effect is the same in any state, whatever was in the buffer. -/
def Obligations.FeedMagicStartsAFrame : Prop :=
  ∀ (c : Chunk),
    SelectedWhen (.feedMagic c)
      (fun _ p => p.rst = false ∧ p.chunkValid = true ∧ p.chunkData = c ∧ isMagic c = true) ∧
    ∀ (s : State), ∃ t, exec (.feedMagic c) s = .next t ∧
    (∀ a, t.asm.buf.read a = if a < 7 then chunkByte c a else 0) ∧
    t.asm.cursor = 7 ∧ t.asm.collecting = true ∧ t.asm.reportValid = false ∧
    (∀ a, t.asm.rpt.read a = s.asm.rpt.read a) ∧ t.asm.rptFull = s.asm.rptFull ∧ OnlyAsm s t

/-- R68: the chunk is discarded; every byte and every other element stays, `report_valid` ends. -/
def Obligations.FeedIdleDropsTheChunk : Prop :=
  ∀ (c : Chunk),
    SelectedWhen (.feedIdle c) (fun ctl p => p.rst = false ∧ p.chunkValid = true ∧ p.chunkData = c ∧
      isMagic c = false ∧ ctl.collecting = false) ∧
    ∀ (s : State), ∃ t, exec (.feedIdle c) s = .next t ∧
    (∀ a, t.asm.buf.read a = s.asm.buf.read a) ∧ (∀ a, t.asm.rpt.read a = s.asm.rpt.read a) ∧
    t.asm = { s.asm with reportValid := false } ∧ OnlyAsm s t

/-- R69: the chunk is discarded and collection ends; every byte and the cursor stay. -/
def Obligations.FeedOverflowDropsTheFrame : Prop :=
  ∀ (c : Chunk),
    SelectedWhen (.feedOverflow c) (fun ctl p => p.rst = false ∧ p.chunkValid = true ∧ p.chunkData = c ∧
      isMagic c = false ∧ ctl.collecting = true ∧ 42 < ctl.cursor.toNat + 7) ∧
    ∀ (s : State), ∃ t, exec (.feedOverflow c) s = .next t ∧
    (∀ a, t.asm.buf.read a = s.asm.buf.read a) ∧ (∀ a, t.asm.rpt.read a = s.asm.rpt.read a) ∧
    t.asm = { s.asm with collecting := false, reportValid := false } ∧ OnlyAsm s t

/-- R70, where the seven offsets exist: the chunk lies at `cursor .. cursor+6`, every other byte stays. The
buffer is canonical (an invariant, see `StepKeepsTheInvariants`). -/
def Obligations.FeedAppendStoresAtTheCursor : Prop :=
  ∀ (c : Chunk),
    SelectedWhen (.feedAppend c) (fun ctl p => p.rst = false ∧ p.chunkValid = true ∧ p.chunkData = c ∧
      isMagic c = false ∧ ctl.collecting = true ∧ ctl.cursor.toNat + 7 ≤ 42 ∧ ctl.cursor.toNat + 7 < 37) ∧
    ∀ (s : State), s.asm.buf.wf = true → s.asm.cursor.toNat + 7 ≤ 42 →
    ∃ t, exec (.feedAppend c) s = .next t ∧
      (∀ a, t.asm.buf.read a =
        if s.asm.cursor.toNat ≤ a ∧ a < s.asm.cursor.toNat + 7 then chunkByte c (a - s.asm.cursor.toNat)
        else s.asm.buf.read a) ∧
      t.asm.cursor.toNat = s.asm.cursor.toNat + 7 ∧ t.asm.collecting = s.asm.collecting ∧
      (∀ a, t.asm.rpt.read a = s.asm.rpt.read a) ∧ t.asm.rptFull = s.asm.rptFull ∧ t.asm.reportValid = false ∧
      OnlyAsm s t

/-- R71 with the hand-off of R72, where the seven offsets exist: the report is the first 37 bytes of the buffer
after the append; bytes 37 to 41 reach no report. -/
def Obligations.FeedCompleteHandsTheReportOver : Prop :=
  ∀ (c : Chunk),
    SelectedWhen (.feedComplete c) (fun ctl p => p.rst = false ∧ p.chunkValid = true ∧ p.chunkData = c ∧
      isMagic c = false ∧ ctl.collecting = true ∧ ctl.cursor.toNat + 7 ≤ 42 ∧ 37 ≤ ctl.cursor.toNat + 7) ∧
    ∀ (s : State), s.asm.buf.wf = true → s.asm.cursor.toNat + 7 ≤ 42 →
    ∃ t, exec (.feedComplete c) s = .next t ∧
      (∀ a, t.asm.buf.read a =
        if s.asm.cursor.toNat ≤ a ∧ a < s.asm.cursor.toNat + 7 then chunkByte c (a - s.asm.cursor.toNat)
        else s.asm.buf.read a) ∧
      t.asm.cursor.toNat = s.asm.cursor.toNat + 7 ∧ t.asm.collecting = false ∧
      (∀ o, t.asm.rpt.read o = if o < 37 then t.asm.buf.read o else 0) ∧
      t.asm.rptFull = true ∧ t.asm.reportValid = true ∧ OnlyAsm s t

/-- The model's choice (log 6): `exec` of a storing FEED case stops where `buf` has no such offsets. R56 selects
neither there, so no cycle stops (`EveryStepAnswersANextState`). -/
def Obligations.StoringPastTheBufferStops : Prop :=
  ∀ (c : Chunk) (s : State), 42 < s.asm.cursor.toNat + 7 →
    exec (.feedAppend c) s = .fault (.bufferRange (s.asm.cursor.toNat + 6)) ∧
    exec (.feedComplete c) s = .fault (.bufferRange (s.asm.cursor.toNat + 6))

/-! ### DEC, GET, BAR -/

/-- R82 for the six slots of R83 to R88, R90's exactness with it: the sign is bit 15 of the fractional field and
the magnitude is integer part times 10000 plus the field's low 15 bits, as numbers, nothing lost. -/
def Obligations.AxisDecodeShowsTheSlot : Prop :=
  ∀ s : State, ∀ ik ∈ [(Instr.decWcx, 0), (.decWcy, 1), (.decWcz, 2), (.decMcx, 3), (.decMcy, 4), (.decMcz, 5)],
    SelectedWhen ik.1 (fun _ p => p.decAxis.toNat < 3 ∧ 3 * p.decCs.toNat + p.decAxis.toNat = ik.2) ∧
    ∃ t, exec ik.1 s = .next t ∧
      (t.out.decSign = true ↔ 32768 ≤ num16 s.asm.rpt (5 + 4 * ik.2)) ∧
      t.out.decMag.toNat = num16 s.asm.rpt (3 + 4 * ik.2) * 10000 + num16 s.asm.rpt (5 + 4 * ik.2) % 32768 ∧
      t.out.decMag.toNat ≤ 655382767 ∧
      t.out = { s.out with decSign := t.out.decSign, decMag := t.out.decMag } ∧ SameState s t ∧ SameWires s t

/-- R89: positive zero, whatever the report and `dec_cs` are. -/
def Obligations.AxisOutOfRangeShowsPositiveZero : Prop :=
  ∀ (cs : Bool) (s : State), SelectedWhen (.decOor cs) (fun _ p => p.decCs = cs ∧ p.decAxis = 3) ∧
    ∃ t, exec (.decOor cs) s = .next t ∧
    t.out = { s.out with decSign := false, decMag := 0 } ∧ SameState s t ∧ SameWires s t

/-- R92, R94 to R97: each 16-bit field read is always active, gives the little-endian number at its offset, and
only its port changes; `f_magic` is the marker once a report is held. (What R92 says of it after reset is not
claimed: R171.) -/
def Obligations.WideFieldReadsShowTheReport : Prop :=
  (∀ i ∈ [Instr.getMagic, .getFeedOvr, .getSpindleOvr, .getFeed, .getSpindle],
    SelectedWhen i fun _ _ => True) ∧
  ∀ s : State,
    (∃ t, exec .getMagic s = .next t ∧ t.out.fMagic.toNat = num16 s.asm.rpt 0 ∧
      (RInv s.asm → s.asm.rptFull = true → t.out.fMagic = 0xFDFE) ∧
      t.out = { s.out with fMagic := t.out.fMagic } ∧ SameState s t ∧ SameWires s t) ∧
    (∃ t, exec .getFeedOvr s = .next t ∧ t.out.fFeedOvr.toNat = num16 s.asm.rpt 27 ∧
      t.out = { s.out with fFeedOvr := t.out.fFeedOvr } ∧ SameState s t ∧ SameWires s t) ∧
    (∃ t, exec .getSpindleOvr s = .next t ∧ t.out.fSpindleOvr.toNat = num16 s.asm.rpt 29 ∧
      t.out = { s.out with fSpindleOvr := t.out.fSpindleOvr } ∧ SameState s t ∧ SameWires s t) ∧
    (∃ t, exec .getFeed s = .next t ∧ t.out.fFeed.toNat = num16 s.asm.rpt 31 ∧
      t.out = { s.out with fFeed := t.out.fFeed } ∧ SameState s t ∧ SameWires s t) ∧
    (∃ t, exec .getSpindle s = .next t ∧ t.out.fSpindle.toNat = num16 s.asm.rpt 33 ∧
      t.out = { s.out with fSpindle := t.out.fSpindle } ∧ SameState s t ∧ SameWires s t)

/-- R93, R98, R99: each byte field read is always active, gives the byte at its offset, and only its port changes. -/
def Obligations.ByteFieldReadsShowTheReport : Prop :=
  (∀ i ∈ [Instr.getKey, .getStep, .getState], SelectedWhen i fun _ _ => True) ∧
  ∀ s : State,
    (∃ t, exec .getKey s = .next t ∧ t.out = { s.out with fKey := s.asm.rpt.read 2 } ∧
      SameState s t ∧ SameWires s t) ∧
    (∃ t, exec .getStep s = .next t ∧ t.out = { s.out with fStep := s.asm.rpt.read 35 } ∧
      SameState s t ∧ SameWires s t) ∧
    (∃ t, exec .getState s = .next t ∧ t.out = { s.out with fState := s.asm.rpt.read 36 } ∧
      SameState s t ∧ SameWires s t)

/-- R123, R124: always active, the override clamped at 100, in 7 bits, and only the bar's port changes. -/
def Obligations.BarsShowTheClampedOverride : Prop :=
  (∀ i ∈ [Instr.barFeed, .barSpindle], SelectedWhen i fun _ _ => True) ∧
  ∀ s : State,
    (∃ t, exec .barFeed s = .next t ∧ t.out.barFeedPct.toNat = min (num16 s.asm.rpt 27) 100 ∧
      t.out = { s.out with barFeedPct := t.out.barFeedPct } ∧ SameState s t ∧ SameWires s t) ∧
    (∃ t, exec .barSpindle s = .next t ∧ t.out.barSpindlePct.toNat = min (num16 s.asm.rpt 29) 100 ∧
      t.out = { s.out with barSpindlePct := t.out.barSpindlePct } ∧ SameState s t ∧ SameWires s t)

/-- The spec's sentence (R91, which it marks as derived from R49 and R82): encoding (I, F, S) as `int` = I,
`fld` = F + 32768 × S and decoding gives `dec_mag` = 10000 × I + F, `dec_sign` = S, error 0; and (R90, derived)
the magnitude never passes 655 382 767. -/
def Obligations.FixedPointRoundTripIsExact : Prop :=
  ∀ (k : Fin 6) (int frac : Nat) (sign : Bool) (s : State), int < 65536 → frac < 32768 →
    num16 s.asm.rpt (3 + 4 * k) = int → num16 s.asm.rpt (5 + 4 * k) = frac + 32768 * sign.toNat →
    ∃ i t, i ∈ [Instr.decWcx, .decWcy, .decWcz, .decMcx, .decMcy, .decMcz][k.val]? ∧ exec i s = .next t ∧
      t.out.decMag.toNat = 10000 * int + frac ∧ t.out.decSign = sign ∧ t.out.decMag.toNat ≤ 655382767

/-! ### EVAL -/

/-- R107, with R101 to R106: the strobe of R100, the lanes, the decision and what is written, over the encodings as
the sum of R50. -/
def Obligations.EvalDecidesAndRemembers : Prop :=
  ∀ (now : Millis) (s : State),
    SelectedWhen (.eval now) (fun ctl p => p.rst = false ∧ (ctl.reportValid = true ∨ p.evalStrobe = true) ∧
      p.nowMs = now) ∧
    ∃ t, exec (.eval now) s = .next t ∧
    (∀ k : Fin 6, t.out.det.changed[k] = true ↔
      s.gate.pdcValid[k] = false ∨ s.gate.pdcEnc[k].toNat ≠ encNum s.asm.rpt k) ∧
    (t.out.det.posDirty = true ↔ ∃ k : Fin 6, t.out.det.changed[k] = true) ∧
    (t.out.det.refreshDue = true ↔ 500 < elapsedNum now s.gate.lastRedrawMs) ∧
    (t.out.det.redraw = true ↔ t.out.det.posDirty = true ∨ t.out.det.refreshDue = true) ∧
    (∀ k : Fin 6, t.gate.pdcValid[k] = true ∧ t.gate.pdcEnc[k].toNat = encNum s.asm.rpt k) ∧
    (t.out.det.redraw = true → t.gate.lastRedrawMs = now) ∧
    (t.out.det.redraw = false → t.gate.lastRedrawMs = s.gate.lastRedrawMs) ∧
    t.asm = s.asm ∧ (∀ a, t.asm.buf.read a = s.asm.buf.read a) ∧ (∀ a, t.asm.rpt.read a = s.asm.rpt.read a) ∧
    t.cells = s.cells ∧ t.out = { s.out with det := t.out.det } ∧ SameWires s t

/-- R50: the packed raw encoding is the sum of its four bytes, and two slots, of one report or of two, have equal
encodings exactly when their four bytes are equal. -/
def Obligations.EncodingsAreEqualExactlyWhenTheBytesAre : Prop :=
  ∀ (m n : Memory) (j k : Nat),
    (slotEnc m j).toNat = num16 m (3 + 4 * j) + 65536 * num16 m (5 + 4 * j) ∧
    (slotEnc m j).toNat = encNum m j ∧
    (slotEnc m j = slotEnc n k ↔ ∀ i < 4, m.read (3 + 4 * j + i) = n.read (3 + 4 * k + i))

/-- The spec's sentences (R109, which it marks as derived): if `changed[k]` = 0 then writing lane `k` changes
nothing; if `redraw` = 0 then all `changed[k]` = 0; so the three cache-update policies give the same state. -/
def Obligations.CacheUpdatePoliciesCoincide : Prop :=
  ∀ (now : Millis) (s t : State), exec (.eval now) s = .next t →
    (∀ k : Fin 6, t.out.det.changed[k] = false →
      t.gate.pdcValid[k] = s.gate.pdcValid[k] ∧ t.gate.pdcEnc[k] = s.gate.pdcEnc[k]) ∧
    (t.out.det.redraw = false → ∀ k : Fin 6, t.out.det.changed[k] = false) ∧
    (t.out.det.redraw = false → t.gate = s.gate)

/-- The spec's sentence (R110, which it marks as derived): the first EVAL after reset asks for a redraw, whatever
the report and the time are. Stated of any state whose entries are all unset. -/
def Obligations.FirstEvalAlwaysRedraws : Prop :=
  ∀ (now : Millis) (s : State), (∀ k : Fin 6, s.gate.pdcValid[k] = false) →
    ∃ t, exec (.eval now) s = .next t ∧ (∀ k : Fin 6, t.out.det.changed[k] = true) ∧
      t.out.det.redraw = true ∧ t.gate.lastRedrawMs = now

/-- The spec's sentences (R111 and R112, which it marks as derived): an EVAL of the encodings already seen moves
no lane, asks for a redraw exactly when more than 500 ms have passed since the last one, and when it does not it
changes no state. Every encoding counts, all-ones included (R173). -/
def Obligations.EvalIsIdempotentUpToTheRefresh : Prop :=
  ∀ (now now2 : Millis) (s t : State), exec (.eval now) s = .next t →
    ∃ u, exec (.eval now2) t = .next u ∧ u.out.det.posDirty = false ∧
      (u.out.det.redraw = true ↔ 500 < elapsedNum now2 t.gate.lastRedrawMs) ∧
      (u.out.det.redraw = false → u.gate = t.gate)

/-! ### UPD -/

/-- R119 with the selection of R115 and the cells of R118 paired from the right (R117): every cell's operation,
`op_any`, the new entry, and nothing else. -/
def Obligations.UpdDrawsTheDifferenceAndReplacesTheString : Prop :=
  ∀ (f : Fin 8) (len : Nat) (chr : List CharCode) (s : State), len ≤ Config.fieldMaxLen →
    SelectedWhen (.upd (BitVec.ofNat 4 f) len chr) (fun _ p => p.rst = false ∧ p.updValid = true ∧
      p.updField.toNat = f ∧ p.updLen = len ∧ p.updChr = chr) ∧
    ∃ t, exec (.upd (BitVec.ofNat 4 f) len chr) s = .next t ∧
      (∀ p, cellShown t.out.diff.cells p =
        if Config.fieldMaxLen ≤ p then .none
        else if p < len ∧ p < s.cells[f].len then
          (if chr.getD (len - 1 - p) 0 = s.cells[f].chr.read (s.cells[f].len - 1 - p) then .none
           else .draw (chr.getD (len - 1 - p) 0))
        else if p < len then .draw (chr.getD (len - 1 - p) 0)
        else if p < s.cells[f].len then .blank
        else .none) ∧
      (t.out.diff.opAny = true ↔ ∃ p, cellShown t.out.diff.cells p ≠ .none) ∧
      t.cells[f].len = len ∧ (∀ i, t.cells[f].chr.read i = if i < len then chr.getD i 0 else 0) ∧
      (∀ g : Fin 8, g ≠ f → t.cells[g] = s.cells[g]) ∧
      t.asm = s.asm ∧ (∀ a, t.asm.buf.read a = s.asm.buf.read a) ∧ (∀ a, t.asm.rpt.read a = s.asm.rpt.read a) ∧
      t.gate = s.gate ∧ t.out = { s.out with diff := t.out.diff } ∧ SameWires s t

/-- The model's choice (log 6): `exec` of UPD stops where there is no entry to write or no room for the string.
R56 selects UPD.REFUSED there. -/
def Obligations.UpdWithoutStorageStops : Prop :=
  ∀ (f : BitVec 4) (len : Nat) (chr : List CharCode) (s : State), 8 ≤ f.toNat ∨ Config.fieldMaxLen < len →
    exec (.upd f len chr) s = .fault (.cacheRange f len)

/-- R120: selected by a field from 8 on or a length above the bound; no state changes, every cell
shows NONE with character 0x00, `op_any` = 0. -/
def Obligations.UpdRefusedChangesNothing : Prop :=
  ∀ (f : BitVec 4) (len : Nat) (s : State),
    SelectedWhen (.updRefused f len) (fun _ p => p.rst = false ∧ p.updValid = true ∧ p.updField = f ∧
      p.updLen = len ∧ (8 ≤ f.toNat ∨ Config.fieldMaxLen < len)) ∧
    ∃ t, exec (.updRefused f len) s = .next t ∧
    (∀ p, (cellShown t.out.diff.cells p).kind = 0 ∧ (cellShown t.out.diff.cells p).chr = 0) ∧
    t.out.diff.opAny = false ∧ t.out = { s.out with diff := t.out.diff } ∧ SameState s t ∧ SameWires s t

/-- The spec's sentence (R121, which it marks as derived): a second UPD with the same string asks for no cell
operation and leaves the cache as it is. -/
def Obligations.UpdIsIdempotent : Prop :=
  ∀ (f : BitVec 4) (len : Nat) (chr : List CharCode) (s t : State), exec (.upd f len chr) s = .next t →
    ∃ u, exec (.upd f len chr) t = .next u ∧ (∀ p, cellShown u.out.diff.cells p = .none) ∧
      u.out.diff.opAny = false ∧ u.cells = t.cells ∧ SameState t u

/-- The spec's sentences (R122, which it marks as derived): the number of cells with an operation is the number of
shared cells whose characters differ plus |Ln − Lo|, and it is 0 exactly when the strings are equal. The old
length is within the bound (R28 (g)). -/
def Obligations.UpdOperationCountIsDifferencesPlusLengthChange : Prop :=
  ∀ (f : Fin 8) (len : Nat) (chr : List CharCode) (s t : State), s.cells[f].len ≤ Config.fieldMaxLen →
    exec (.upd (BitVec.ofNat 4 f) len chr) s = .next t →
    t.out.diff.cells.length =
      ((List.range (min len s.cells[f].len)).filter fun p =>
        chr.getD (len - 1 - p) 0 != s.cells[f].chr.read (s.cells[f].len - 1 - p)).length +
      ((len - s.cells[f].len) + (s.cells[f].len - len)) ∧
    (t.out.diff.cells = [] ↔
      len = s.cells[f].len ∧ ∀ i < len, chr.getD i 0 = s.cells[f].chr.read i)

/-- R118's remark that the number of cells with an operation is the smallest that turns the displayed old string into
the new one: the operations of a UPD do so, and no list of cell operations that does so is shorter. -/
def Obligations.UpdOperationsAreTheFewestThatRedraw : Prop :=
  ∀ (f : Fin 8) (len : Nat) (chr : List CharCode) (s t : State), s.cells[f].len ≤ Config.fieldMaxLen →
    exec (.upd (BitVec.ofNat 4 f) len chr) s = .next t →
    TurnsInto t.out.diff.cells (displayed s.cells[f].len s.cells[f].chr.read) (displayed len (chrAt chr)) ∧
    ∀ ops : List (Nat × CellOp),
      TurnsInto ops (displayed s.cells[f].len s.cells[f].chr.read) (displayed len (chrAt chr)) →
      t.out.diff.cells.length ≤ ops.length

/-- The rows `op_kind`, `op_chr` and `op_any` of R131: cell `p` lies in bits `[2p+1 : 2p]` and `[8p+7 : 8p]`, the code
11 never appears (R55); after a cycle without an accepted UPD all three are 0, and `op_any` says whether some cell has
an operation. (In a cycle with `rst` = 1 the last two clauses are the model's reading of R140, log 4.) -/
def Obligations.CellPortsCarryTheCellsInOrder : Prop :=
  (∀ (o : Outputs) (p : Nat), p < Config.fieldMaxLen →
    o.opKind.extractLsb' (2 * p) 2 = (cellShown o.diff.cells p).kind ∧
    o.opChr.extractLsb' (8 * p) 8 = (cellShown o.diff.cells p).chr ∧
    o.opKind.extractLsb' (2 * p) 2 ≠ 0b11) ∧
  (∀ s t : State, step s = .next t → ¬ updAccepted s.pins →
    t.out.opKind = 0 ∧ t.out.opChr = 0 ∧ t.out.diff.opAny = false) ∧
  (∀ s t : State, step s = .next t → (t.out.diff.opAny = true ↔ t.out.opKind ≠ 0))

/-! ### Encoding and selection -/

/-- R66: the magic test looks at the first two bytes only, equivalently at `u16le(chunk, 0)`, and at no state. -/
def Obligations.MagicTestLooksAtTwoBytes : Prop :=
  ∀ c : Chunk,
    (isMagic c = true ↔ chunkByte c 0 = 0xFE ∧ chunkByte c 1 = 0xFD) ∧
    (isMagic c = true ↔ (chunkByte c 0).toNat + 256 * (chunkByte c 1).toNat = 0xFDFE) ∧
    (isMagic c = true ↔ c.toNat % 65536 = 0xFDFE)

/-- R61, R130: character `i` of a string lies in bits `[8i+7 : 8i]` of the `upd_chr` port. -/
def Obligations.StringPortCarriesTheCharactersInOrder : Prop :=
  ∀ (chr : List CharCode) (i : Nat), i < Config.fieldMaxLen →
    (updChrPort Config.fieldMaxLen chr).extractLsb' (8 * i) 8 = chr.getD i 0

/-- R34: chunk byte `i` is bits `[8i+7:8i]` of the chunk port, seven bytes give back the port they came from, and
byte lane `o` of the report port is `rpt[o]`. -/
def Obligations.PortLanesCarryTheBytesInOrder : Prop :=
  (∀ (c : Chunk) (i : Nat), i < 7 → (chunkByte c i).toNat = c.toNat / 2 ^ (8 * i) % 256) ∧
  (∀ c : Chunk, chunkOfBytes (chunkBytes c) = .ok c) ∧
  (∀ (m : Memory) (o : Nat), o < 37 → lane (reportPort m) o = m.read o)

/-- R65: which FEED case a presented chunk is, the four conditions tested in that order. -/
def Obligations.FeedCasesAreTestedInOrder : Prop :=
  ∀ (ctl : Ctl) (p : Pins), p.rst = false → p.chunkValid = true →
    (isMagic p.chunkData = true → decode .reassembler ctl p = .ok (.feedMagic p.chunkData)) ∧
    (isMagic p.chunkData = false → ctl.collecting = false →
      decode .reassembler ctl p = .ok (.feedIdle p.chunkData)) ∧
    (isMagic p.chunkData = false → ctl.collecting = true → 42 < ctl.cursor.toNat + 7 →
      decode .reassembler ctl p = .ok (.feedOverflow p.chunkData)) ∧
    (isMagic p.chunkData = false → ctl.collecting = true → ctl.cursor.toNat + 7 ≤ 42 →
      ctl.cursor.toNat + 7 < 37 → decode .reassembler ctl p = .ok (.feedAppend p.chunkData)) ∧
    (isMagic p.chunkData = false → ctl.collecting = true → ctl.cursor.toNat + 7 ≤ 42 →
      37 ≤ ctl.cursor.toNat + 7 → decode .reassembler ctl p = .ok (.feedComplete p.chunkData))

/-- The spec's sentences (R70, R71, R75, which it derives): in every state that meets the invariants FEED.OVERFLOW
is never selected, FEED.APPEND only with `cursor` in 7, 14, 21, 28 and FEED.COMPLETE only with `cursor` = 35. -/
def Obligations.OverflowIsNeverSelected : Prop :=
  ∀ (s : State) (p : Pins) (c : Chunk), RInv s.asm →
    decode .reassembler s.ctl p ≠ .ok (.feedOverflow c) ∧
    (decode .reassembler s.ctl p = .ok (.feedAppend c) → s.asm.cursor.toNat ∈ [7, 14, 21, 28]) ∧
    (decode .reassembler s.ctl p = .ok (.feedComplete c) → s.asm.cursor.toNat = 35)

/-- Decode and encode agree (R56, "a decoder for the RFE is this table"): the port values that encode a well-formed
operation decode to it, with every operand, in every control state that R56 selects it in. -/
def Obligations.DecodeOfEncodeIsTheOperation : Prop :=
  ∀ (i : Instr) (ctl : Ctl), i.WellFormed → ctl.selects i = true → decode i.block ctl (encode i) = .ok i

/-- What the decoder answers is well-formed, belongs to the block asked, and is selected in that control state. -/
def Obligations.DecodedOperationsAreSelected : Prop :=
  ∀ (b : Block) (ctl : Ctl) (p : Pins) (i : Instr), p.WellFormed → decode b ctl p = .ok i →
    i.WellFormed ∧ i.block = b ∧ ctl.selects i = true

/-- Port words written out from R46 and R53 decode to the operations they stand for: `FE FD 5A 64 00 32 80` and
`01 02 03 04 05 06 07` on the chunk port, the eight values of `sel`. That `decodeTableWord` puts a word of one byte on
`sel` is the model's choice (log 8). A sanity statement. -/
def Obligations.SpecWordsDecode : Prop :=
  decode .reassembler Ctl.reset { Pins.idle with chunkValid := true, chunkData := 0x803200645AFDFE } =
    .ok (.feedMagic 0x803200645AFDFE) ∧
  decode .reassembler Ctl.reset { Pins.idle with chunkValid := true, chunkData := 0x07060504030201 } =
    .ok (.feedIdle 0x07060504030201) ∧
  (List.range 8).map (fun sel => decodeTableWord 8 sel) =
    [some .decWcx, some .decWcy, some .decWcz, some (.decOor false), some .decMcx, some .decMcy, some .decMcz,
     some (.decOor true)]

/-! ### The cycle -/

/-- A step runs the decoded operations: whatever a block decodes to in this cycle is among the operations run
(RESET, when `rst` = 1, last), and a step is those operations between the start and the end of the cycle. The model's
choice in two places: that the other blocks' operations run, for their outputs, in a cycle with `rst` = 1 as well
(log 4), and that a cycle's operations run one after another (log 11). -/
def Obligations.StepRunsTheDecodedOperations : Prop :=
  (∀ (s : State) (b : Block) (i : Instr), b ≠ .system →
    decode b s.ctl { s.pins with rst := false } = .ok i → i ∈ cycleOps s.ctl s.pins) ∧
  (∀ s : State, s.pins.rst = true → (cycleOps s.ctl s.pins).getLast? = some .reset) ∧
  (∀ s t : State, runOps (cycleOps s.ctl s.pins) s.beginCycle = .next t → step s = .next t.endCycle)

/-- What R133 says, for the operation of each block: within the cycle, `exec` runs it on a state that shows it what
the state was before the edge (`report_valid` apart, which has its own strobe), and the cycle goes on from what it
leaves. The model's choice in two places: the one-after-another order in which the model gets this (log 11), and that
FEED, EVAL and UPD run in a cycle with `rst` = 1 as well, RESET after them (log 4). -/
def Obligations.EachOperationReadsTheStateBeforeTheEdge : Prop :=
  ∀ (s : State) (b : Block) (i : Instr), b ≠ .system → decode b s.ctl { s.pins with rst := false } = .ok i →
    ∃ pre post u v t, cycleOps s.ctl s.pins = pre ++ i :: post ∧ runOps pre s.beginCycle = .next u ∧
      exec i u = .next v ∧ runOps post v = .next t ∧ step s = .next t.endCycle ∧
      u.asm = { s.asm with reportValid := false } ∧ (b = .detector → u.gate = s.gate) ∧
      (b ≠ .reassembler → u.cells = s.cells)

/-- R146: no operation stops a cycle, under any input and in any state: `step` always answers a next state. -/
def Obligations.EveryStepAnswersANextState : Prop :=
  ∀ s : State, ∃ t, step s = .next t

/-- What R132 and R133 say: a step is the pair `out`, `next`, three parts acting side by side on the state before the
edge, although it runs its operations one after another (log 11). Two things in `next` and `out` are the model's
choice and not R132's: EVAL runs on the standalone strobe `evalStrobe` as well (log 1), and the outputs of a cycle with
`rst` = 1 are those of any cycle (log 4). -/
def Obligations.StepIsNextAndOut : Prop :=
  ∀ s : State, ∃ t, step s = .next t ∧ t.asm = s.asm.next s.pins ∧ t.gate = s.gate.next s.asm s.pins ∧
    t.cells = s.cells.next s.pins ∧ t.out = outputsOf s s.pins

/-- What the last sentence of R141 says: the composed machine is the four blocks, each a function with explicit state.
FEED's result says whether `rpt` takes a new report; EVAL's strobe is `report_valid`, one cycle later, with the
encodings of that report. -/
def Obligations.StepIsTheBlocksComposed : Prop :=
  ∀ s : State, s.pins.rst = false → ∃ t, step s = .next t ∧
    (s.pins.chunkValid = true →
      t.asm.assembler = (feedBlock s.asm.assembler s.pins.chunkData).1 ∧
      t.asm.rpt = (feedBlock s.asm.assembler s.pins.chunkData).2.getD s.asm.rpt ∧
      t.asm.rptFull = (s.asm.rptFull || (feedBlock s.asm.assembler s.pins.chunkData).2.isSome) ∧
      t.asm.reportValid = (feedBlock s.asm.assembler s.pins.chunkData).2.isSome) ∧
    (s.asm.reportValid = true →
      (t.gate, t.out.det) = evalBlock s.gate (encodings s.asm.rpt) s.pins.nowMs) ∧
    (∀ axis : Fin 4, s.pins.decAxis.toNat = axis.val →
      (t.out.decSign, t.out.decMag.toNat) = decodeBlock s.asm.rpt s.pins.decCs axis) ∧
    (s.pins.updValid = true →
      (t.cells, t.out.diff) =
        updBlock Config.fieldMaxLen s.cells s.pins.updField s.pins.updLen s.pins.updChr) ∧
    (∀ (r : Memory) (u : State), s.pins.chunkValid = true →
      (feedBlock s.asm.assembler s.pins.chunkData).2 = some r → t.pins.rst = false → step t = .next u →
      (u.gate, u.out.det) = evalBlock t.gate (encodings r) t.pins.nowMs)

/-- The spec's invariants (R28 and R74, which it marks as derived), with the canonical form of the byte spaces:
every step keeps them. -/
def Obligations.StepKeepsTheInvariants : Prop :=
  ∀ s t : State, Inv s → step s = .next t → Inv t

/-- The invariants hold right after reset. -/
def Obligations.ResetMeetsTheInvariants : Prop :=
  Inv State.reset

/-- R79, R108, R125: a block whose strobe is 0 holds its state, and its strobed outputs are 0. -/
def Obligations.BlocksWithoutStrobeHold : Prop :=
  ∀ s : State, s.pins.rst = false → ∃ t, step s = .next t ∧
    (s.pins.chunkValid = false → t.asm = { s.asm with reportValid := false }) ∧
    (s.asm.reportValid = false → s.pins.evalStrobe = false →
      t.gate = s.gate ∧ (∀ k : Fin 6, t.out.det.changed[k] = false) ∧ t.out.det.posDirty = false ∧
        t.out.det.refreshDue = false ∧ t.out.det.redraw = false) ∧
    (s.pins.updValid = false →
      t.cells = s.cells ∧ (∀ p, cellShown t.out.diff.cells p = .none) ∧ t.out.diff.opAny = false)

/-- With `rst` = 1 the next state is the reset state whatever the strobes are (R140); that the outputs of the cycle are
those of the same cycle without reset is the model's reading of `out(s(t), in(t))` (log 4). -/
def Obligations.ResetOverridesTheCycle : Prop :=
  ∀ s : State, s.pins.rst = true → ∃ t u, step s = .next t ∧
    step { s with pins := { s.pins with rst := false } } = .next u ∧
    t.asm = RState.reset ∧ t.gate = DState.reset ∧ t.cells = CState.reset ∧ t.out = u.out

/-- R16 and R17: `report_valid` is 1 exactly after a cycle with FEED.COMPLETE, `rpt_full` from the first one on
until reset; both are output ports, and `report_valid` is the strobe of EVAL. -/
def Obligations.ReportFlagsFollowCompletion : Prop :=
  ∀ s t : State, step s = .next t →
    (t.asm.reportValid = true ↔ decode .reassembler s.ctl s.pins = .ok (.feedComplete s.pins.chunkData)) ∧
    (s.pins.rst = false → (t.asm.rptFull = true ↔
      s.asm.rptFull = true ∨ decode .reassembler s.ctl s.pins = .ok (.feedComplete s.pins.chunkData))) ∧
    (s.pins.rst = true → t.asm.rptFull = false) ∧
    t.out.reportValid = s.asm.reportValid ∧ t.out.rptFull = s.asm.rptFull ∧
    (s.pins.rst = false → s.asm.reportValid = true →
      decode .detector s.ctl s.pins = .ok (.eval s.pins.nowMs))

/-- The spec's sentence in R166: "the PositionDirtyCache goes back to unset only by RESET". -/
def Obligations.OnlyResetUnsetsTheDirtyCache : Prop :=
  ∀ (s t : State) (k : Fin 6), s.gate.pdcValid[k] = true → step s = .next t → t.gate.pdcValid[k] = false →
    s.pins.rst = true

/-- The table of R73 (which the spec marks as derived): from IDLE and from C(1) to C(5), on a magic chunk, on a
data chunk and on no chunk. A magic chunk leads to C(1) from anywhere. -/
def Obligations.ReassemblerFollowsItsTransitionTable : Prop :=
  ∀ (s : State), s.pins.rst = false → ∃ t, step s = .next t ∧
    (s.pins.chunkValid = true → isMagic s.pins.chunkData = true →
      t.asm.collecting = true ∧ t.asm.cursor = 7 ∧ t.asm.reportValid = false) ∧
    (s.pins.chunkValid = true → isMagic s.pins.chunkData = false → s.asm.collecting = false →
      t.asm.collecting = false ∧ t.asm.reportValid = false) ∧
    (∀ n, n ∈ [1, 2, 3, 4] → s.pins.chunkValid = true → isMagic s.pins.chunkData = false →
      s.asm.collecting = true → s.asm.cursor.toNat = 7 * n →
      t.asm.collecting = true ∧ t.asm.cursor.toNat = 7 * (n + 1) ∧ t.asm.reportValid = false) ∧
    (s.pins.chunkValid = true → isMagic s.pins.chunkData = false → s.asm.collecting = true →
      s.asm.cursor.toNat = 35 → t.asm.collecting = false ∧ t.asm.cursor.toNat = 42 ∧ t.asm.reportValid = true) ∧
    (s.pins.chunkValid = false →
      t.asm.collecting = s.asm.collecting ∧ t.asm.cursor = s.asm.cursor ∧ t.asm.reportValid = false)

/-- The timing of R134: in the cycle after a completing chunk the outputs show `report_valid`, `rpt_full` and the
new report, EVAL runs on it with that cycle's time, and unless a report completes again `report_valid` is 0 in the
cycle after. The outputs of the completing cycle still show the report before it. (That EVAL's outputs show in the second
cycle also when it has `rst` = 1 is the model's choice, log 4.) -/
def Obligations.ReportIsVisibleOneCycleLater : Prop :=
  ∀ (s t u : State), step s = .next t → step t = .next u →
    decode .reassembler s.ctl s.pins = .ok (.feedComplete s.pins.chunkData) →
    t.out.report = reportPort s.asm.rpt ∧ t.out.fKey = s.asm.rpt.read 2 ∧
    u.out.reportValid = true ∧ u.out.rptFull = true ∧ u.out.report = reportPort t.asm.rpt ∧
    u.out.fKey = t.asm.rpt.read 2 ∧ u.out.det = evalOut t.gate (encodings t.asm.rpt) t.pins.nowMs ∧
    (t.pins.rst = false → u.gate = t.gate.afterEval (encodings t.asm.rpt) t.pins.nowMs) ∧
    u.asm.reportValid = false

/-! ### Runs -/

/-- The spec's sentence (R77, which it marks as derived): six chunks, the first magic and none of the others, fed in
that order in any cycles with no other chunk between them, from any state: exactly one report is emitted, by the
sixth, and it equals the first 37 bytes of the six. -/
def Obligations.SixChunksGiveTheirReport : Prop :=
  ∀ (s : State) (ps : List Pins) (last : Pins) (c0 c1 c2 c3 c4 c5 : Chunk),
    NoReset (ps ++ [last]) → chunksOf ps = [c0, c1, c2, c3, c4] → last.chunkValid = true → last.chunkData = c5 →
    isMagic c0 = true → (∀ c ∈ [c1, c2, c3, c4, c5], isMagic c = false) →
    (∃ t, runInputs (ps ++ [last]) s = .next t ∧ t.asm.reportValid = true ∧ t.asm.rptFull = true ∧
      ∀ o < 37, t.asm.rpt.read o =
        ([c0, c1, c2, c3, c4, c5].flatMap chunkBytes).getD o 0) ∧
    (∀ qs rs u, ps = qs ++ rs → qs ≠ [] → runInputs qs s = .next u → u.asm.reportValid = false)

/-- The spec's sentence (R78, which it marks as derived): two reports are at least six cycles apart, and the report
is stable for at least six cycles: from any state that is not collecting (as it is when `report_valid` is 1),
no run of five cycles or fewer completes a report or changes a byte of it. -/
def Obligations.ReportsAreSixCyclesApart : Prop :=
  ∀ (s : State) (ps : List Pins), s.asm.collecting = false → NoReset ps → ps ≠ [] → ps.length ≤ 5 →
    ∃ t, runInputs ps s = .next t ∧ t.asm.reportValid = false ∧ ∀ a, t.asm.rpt.read a = s.asm.rpt.read a

/-- What R25 calls hidden no output depends on: two states that differ only there give the same outputs in a cycle
with the same inputs, and differ only there after it. (R25's clause on `last_redraw_ms` is not claimed: R110 says
that it shows on `refresh_due`.) -/
def Obligations.HiddenStateIsUnobservable : Prop :=
  ∀ s t : State, s.asm.buf.wf = true → t.asm.buf.wf = true → HiddenOnly s t →
    ∃ s' t', step s = .next s' ∧ step t = .next t' ∧ t'.out = s'.out ∧ HiddenOnly s' t'
end

