-- ==== Sys2Proof/Laws/Lanes.lean ====
section
/-! SUPPORT. What lies in each field of a packed port. -/

namespace Sys2Proof.Machine

@[simp] theorem fieldsNat_nil {k : Nat} : fieldsNat ([] : List (BitVec k)) = 0 := rfl

@[simp] theorem fieldsNat_cons {k : Nat} (v : BitVec k) (vs : List (BitVec k)) :
    fieldsNat (v :: vs) = v.toNat + 2 ^ k * fieldsNat vs := rfl

/-- The fields of a list fit its width. -/
theorem fieldsNat_lt {k : Nat} (vs : List (BitVec k)) : fieldsNat vs < 2 ^ (k * vs.length) := by
  induction vs with
  | nil => simp
  | cons v vs ih =>
    have hv := v.isLt
    rw [fieldsNat_cons, List.length_cons, Nat.mul_succ, Nat.add_comm, Nat.pow_add, Nat.mul_comm _ (2 ^ k)]
    calc 2 ^ k * fieldsNat vs + v.toNat < 2 ^ k * fieldsNat vs + 2 ^ k := by omega
      _ = 2 ^ k * (fieldsNat vs + 1) := by rw [Nat.mul_succ]
      _ ≤ 2 ^ k * 2 ^ (k * vs.length) := Nat.mul_le_mul_left _ ih

/-- Field `i` of the number is value `i` of the list. -/
theorem fieldsNat_field {k : Nat} (vs : List (BitVec k)) (i : Nat) :
    fieldsNat vs / 2 ^ (k * i) % 2 ^ k = (vs.getD i 0).toNat := by
  induction vs generalizing i with
  | nil => simp
  | cons v vs ih =>
    cases i with
    | zero =>
      simp [Nat.add_mul_mod_self_left, Nat.mod_eq_of_lt v.isLt]
    | succ i =>
      rw [fieldsNat_cons, Nat.mul_succ, Nat.add_comm (k * i), Nat.pow_add, ← Nat.div_div_eq_div_mul,
        Nat.add_mul_div_left _ _ (Nat.two_pow_pos k), Nat.div_eq_of_lt v.isLt, Nat.zero_add, ih]
      rfl

/-- Value `i` lies in bits `[k·i+k-1 : k·i]` of a port that is wide enough; fields past the list are 0. -/
theorem packLanes_field {k : Nat} (w : Nat) (vs : List (BitVec k)) (i : Nat) (h : k * vs.length ≤ w) :
    (packLanes w vs).extractLsb' (k * i) k = vs.getD i 0 := by
  apply BitVec.eq_of_toNat_eq
  have hlt : fieldsNat vs < 2 ^ w := Nat.lt_of_lt_of_le (fieldsNat_lt vs) (Nat.pow_le_pow_right (by decide) h)
  rw [BitVec.extractLsb'_toNat, packLanes, BitVec.toNat_ofNat, Nat.mod_eq_of_lt hlt, Nat.shiftRight_eq_div_pow,
    fieldsNat_field]

/-- `packLanes_field` where the values are those of a function. -/
theorem packLanes_range {k : Nat} (w n : Nat) (f : Nat → BitVec k) (i : Nat) (h : k * n ≤ w) (hi : i < n) :
    (packLanes w ((List.range n).map f)).extractLsb' (k * i) k = f i := by
  rw [packLanes_field _ _ _ (by simpa using h)]
  simp [List.getD, hi]

end Sys2Proof.Machine
end

