-- ==== Sys2Proof/Laws/State.lean ====
section
/-! SUPPORT. One lemma per field per update, each true by rfl, so that no proof unfolds a record update. -/

namespace Sys2Proof.Machine

@[simp] theorem RState.startFrame_buf (c : Chunk) (r : RState) :
    (r.startFrame c).buf = Memory.writeBytes [] 0 (chunkBytes c) := rfl
@[simp] theorem RState.startFrame_cursor (c : Chunk) (r : RState) :
    (r.startFrame c).cursor = 7 := rfl
@[simp] theorem RState.startFrame_collecting (c : Chunk) (r : RState) :
    (r.startFrame c).collecting = true := rfl
@[simp] theorem RState.startFrame_rpt (c : Chunk) (r : RState) :
    (r.startFrame c).rpt = r.rpt := rfl
@[simp] theorem RState.startFrame_rptFull (c : Chunk) (r : RState) :
    (r.startFrame c).rptFull = r.rptFull := rfl
@[simp] theorem RState.startFrame_reportValid (c : Chunk) (r : RState) :
    (r.startFrame c).reportValid = false := rfl

@[simp] theorem RState.hold_buf (r : RState) :
    (r.hold).buf = r.buf := rfl
@[simp] theorem RState.hold_cursor (r : RState) :
    (r.hold).cursor = r.cursor := rfl
@[simp] theorem RState.hold_collecting (r : RState) :
    (r.hold).collecting = r.collecting := rfl
@[simp] theorem RState.hold_rpt (r : RState) :
    (r.hold).rpt = r.rpt := rfl
@[simp] theorem RState.hold_rptFull (r : RState) :
    (r.hold).rptFull = r.rptFull := rfl
@[simp] theorem RState.hold_reportValid (r : RState) :
    (r.hold).reportValid = false := rfl

@[simp] theorem RState.dropFrame_buf (r : RState) :
    (r.dropFrame).buf = r.buf := rfl
@[simp] theorem RState.dropFrame_cursor (r : RState) :
    (r.dropFrame).cursor = r.cursor := rfl
@[simp] theorem RState.dropFrame_collecting (r : RState) :
    (r.dropFrame).collecting = false := rfl
@[simp] theorem RState.dropFrame_rpt (r : RState) :
    (r.dropFrame).rpt = r.rpt := rfl
@[simp] theorem RState.dropFrame_rptFull (r : RState) :
    (r.dropFrame).rptFull = r.rptFull := rfl
@[simp] theorem RState.dropFrame_reportValid (r : RState) :
    (r.dropFrame).reportValid = false := rfl

@[simp] theorem RState.append_buf (c : Chunk) (r : RState) :
    (r.append c).buf = r.buf.writeBytes r.cursor.toNat (chunkBytes c) := rfl
@[simp] theorem RState.append_cursor (c : Chunk) (r : RState) :
    (r.append c).cursor = r.cursor + 7 := rfl
@[simp] theorem RState.append_collecting (c : Chunk) (r : RState) :
    (r.append c).collecting = r.collecting := rfl
@[simp] theorem RState.append_rpt (c : Chunk) (r : RState) :
    (r.append c).rpt = r.rpt := rfl
@[simp] theorem RState.append_rptFull (c : Chunk) (r : RState) :
    (r.append c).rptFull = r.rptFull := rfl
@[simp] theorem RState.append_reportValid (c : Chunk) (r : RState) :
    (r.append c).reportValid = false := rfl

@[simp] theorem RState.handOff_buf (r : RState) :
    (r.handOff).buf = r.buf := rfl
@[simp] theorem RState.handOff_cursor (r : RState) :
    (r.handOff).cursor = r.cursor := rfl
@[simp] theorem RState.handOff_collecting (r : RState) :
    (r.handOff).collecting = false := rfl
@[simp] theorem RState.handOff_rpt (r : RState) :
    (r.handOff).rpt = r.buf.below Config.reportLen := rfl
@[simp] theorem RState.handOff_rptFull (r : RState) :
    (r.handOff).rptFull = true := rfl
@[simp] theorem RState.handOff_reportValid (r : RState) :
    (r.handOff).reportValid = true := rfl

@[simp] theorem RState.complete_buf (c : Chunk) (r : RState) :
    (r.complete c).buf = r.buf.writeBytes r.cursor.toNat (chunkBytes c) := rfl
@[simp] theorem RState.complete_cursor (c : Chunk) (r : RState) :
    (r.complete c).cursor = r.cursor + 7 := rfl
@[simp] theorem RState.complete_collecting (c : Chunk) (r : RState) :
    (r.complete c).collecting = false := rfl
@[simp] theorem RState.complete_rpt (c : Chunk) (r : RState) :
    (r.complete c).rpt = (r.buf.writeBytes r.cursor.toNat (chunkBytes c)).below Config.reportLen := rfl
@[simp] theorem RState.complete_rptFull (c : Chunk) (r : RState) :
    (r.complete c).rptFull = true := rfl
@[simp] theorem RState.complete_reportValid (c : Chunk) (r : RState) :
    (r.complete c).reportValid = true := rfl

@[simp] theorem State.clear_asm (s : State) :
    (s.clear).asm = RState.reset := rfl
@[simp] theorem State.clear_gate (s : State) :
    (s.clear).gate = DState.reset := rfl
@[simp] theorem State.clear_cells (s : State) :
    (s.clear).cells = CState.reset := rfl
@[simp] theorem State.clear_out (s : State) :
    (s.clear).out = s.out := rfl
@[simp] theorem State.clear_pins (s : State) :
    (s.clear).pins = s.pins := rfl
@[simp] theorem State.clear_script (s : State) :
    (s.clear).script = s.script := rfl

@[simp] theorem State.beginCycle_asm (s : State) :
    (s.beginCycle).asm = s.asm.hold := rfl
@[simp] theorem State.beginCycle_gate (s : State) :
    (s.beginCycle).gate = s.gate := rfl
@[simp] theorem State.beginCycle_cells (s : State) :
    (s.beginCycle).cells = s.cells := rfl
@[simp] theorem State.beginCycle_out (s : State) :
    (s.beginCycle).out = { Outputs.zero with
      reportValid := s.asm.reportValid, rptFull := s.asm.rptFull, report := reportPort s.asm.rpt } := rfl
@[simp] theorem State.beginCycle_pins (s : State) :
    (s.beginCycle).pins = s.pins := rfl
@[simp] theorem State.beginCycle_script (s : State) :
    (s.beginCycle).script = s.script := rfl

@[simp] theorem State.showAxis_asm (s : State) (sg : Bool) (mg : Magnitude) :
    (s.showAxis sg mg).asm = s.asm := rfl
@[simp] theorem State.showAxis_gate (s : State) (sg : Bool) (mg : Magnitude) :
    (s.showAxis sg mg).gate = s.gate := rfl
@[simp] theorem State.showAxis_cells (s : State) (sg : Bool) (mg : Magnitude) :
    (s.showAxis sg mg).cells = s.cells := rfl
@[simp] theorem State.showAxis_out (s : State) (sg : Bool) (mg : Magnitude) :
    (s.showAxis sg mg).out = { s.out with decSign := sg, decMag := mg } := rfl
@[simp] theorem State.showAxis_pins (s : State) (sg : Bool) (mg : Magnitude) :
    (s.showAxis sg mg).pins = s.pins := rfl
@[simp] theorem State.showAxis_script (s : State) (sg : Bool) (mg : Magnitude) :
    (s.showAxis sg mg).script = s.script := rfl

@[simp] theorem State.ctl_collecting (s : State) :
    s.ctl.collecting = s.asm.collecting := rfl
@[simp] theorem State.ctl_cursor (s : State) :
    s.ctl.cursor = s.asm.cursor := rfl
@[simp] theorem State.ctl_reportValid (s : State) :
    s.ctl.reportValid = s.asm.reportValid := rfl

@[simp] theorem DState.afterEval_pdcValid (d : DState) (enc : Vector Encoding Config.nSlots) (now : Millis) :
    (d.afterEval enc now).pdcValid = Vector.replicate Config.nSlots true := rfl
@[simp] theorem DState.afterEval_pdcEnc (d : DState) (enc : Vector Encoding Config.nSlots) (now : Millis) :
    (d.afterEval enc now).pdcEnc = enc := rfl
@[simp] theorem DState.afterEval_lastRedrawMs (d : DState) (enc : Vector Encoding Config.nSlots) (now : Millis) :
    (d.afterEval enc now).lastRedrawMs = if (evalOut d enc now).redraw then now else d.lastRedrawMs := rfl
@[simp] theorem FieldEntry.ofString_len (n : Nat) (chr : List CharCode) :
    (FieldEntry.ofString n chr).len = n := rfl

@[simp] theorem State.endCycle_asm (s : State) : s.endCycle.asm = s.asm := by unfold State.endCycle; split <;> rfl
@[simp] theorem State.endCycle_gate (s : State) : s.endCycle.gate = s.gate := by unfold State.endCycle; split <;> rfl
@[simp] theorem State.endCycle_cells (s : State) : s.endCycle.cells = s.cells := by unfold State.endCycle; split <;> rfl
@[simp] theorem State.endCycle_out (s : State) : s.endCycle.out = s.out := by unfold State.endCycle; split <;> rfl

/-- The inputs of the next cycle: the next of the script, or the same ports with the strobes released. -/
theorem State.endCycle_wires (s : State) :
    (s.endCycle.pins, s.endCycle.script) =
      match s.script with
      | [] => (s.pins.released, [])
      | p :: ps => (p, ps) := by
  cases s with
  | mk asm gate cells out pins script => cases script <;> rfl

end Sys2Proof.Machine
end

