-- ==== Sys2Proof/Laws/Composition.lean ====
section
/-! SUPPORT. What each block of the composed machine can answer, and what the cell ports carry. -/

namespace Sys2Proof.Machine

/-- The five cases of `feed` and what each leaves, once (R65). -/
theorem RState.feed_cases (c : Chunk) (r : RState) :
    (isMagic c = true ∧ r.feed c = r.startFrame c) ∨
    (isMagic c = false ∧ r.collecting = false ∧ r.feed c = r.hold) ∨
    (isMagic c = false ∧ r.collecting = true ∧ 42 < r.cursor.toNat + 7 ∧ r.feed c = r.dropFrame) ∨
    (isMagic c = false ∧ r.collecting = true ∧ r.cursor.toNat + 7 < 37 ∧ r.feed c = r.append c) ∨
    (isMagic c = false ∧ r.collecting = true ∧ r.cursor.toNat + 7 ≤ 42 ∧ 37 ≤ r.cursor.toNat + 7 ∧
      r.feed c = r.complete c) := by
  unfold RState.feed
  by_cases hm : isMagic c = true
  · exact .inl ⟨hm, if_pos hm⟩
  · have hm' : isMagic c = false := by simpa using hm
    rw [if_neg hm]
    by_cases hc : r.collecting = false
    · exact .inr (.inl ⟨hm', hc, if_pos hc⟩)
    · have hc' : r.collecting = true := by simpa using hc
      rw [if_neg hc]
      by_cases ho : 42 < r.cursor.toNat + 7
      · exact .inr (.inr (.inl ⟨hm', hc', ho, if_pos ho⟩))
      · rw [if_neg ho]
        by_cases hl : r.cursor.toNat + 7 < 37
        · exact .inr (.inr (.inr (.inl ⟨hm', hc', hl, if_pos hl⟩)))
        · exact .inr (.inr (.inr (.inr ⟨hm', hc', by omega, by omega, if_neg hl⟩)))

@[simp] theorem RState.assembler_buf (r : RState) : r.assembler.buf = r.buf := rfl
@[simp] theorem RState.assembler_cursor (r : RState) : r.assembler.cursor = r.cursor := rfl
@[simp] theorem RState.assembler_collecting (r : RState) : r.assembler.collecting = r.collecting := rfl
@[simp] theorem RState.ofAssembler_buf (a : Assembler) : (RState.ofAssembler a).buf = a.buf := rfl
@[simp] theorem RState.ofAssembler_cursor (a : Assembler) : (RState.ofAssembler a).cursor = a.cursor := rfl
@[simp] theorem RState.ofAssembler_collecting (a : Assembler) : (RState.ofAssembler a).collecting = a.collecting := rfl

/-- The two cases of `upd` (R119, R120). -/
theorem updBlock_cases (maxLen : Nat) (fc : CState) (f : BitVec 4) (len : Nat) (chr : List CharCode) :
    (∃ hf : f.toNat < Config.nDiffFields, len ≤ maxLen ∧ updBlock maxLen fc f len chr =
      (fc.set f.toNat (FieldEntry.ofString len chr) hf, diffOut maxLen (fc[f.toNat]'hf) len chr)) ∨
    (¬ (f.toNat < Config.nDiffFields ∧ len ≤ maxLen) ∧ updBlock maxLen fc f len chr = (fc, DiffOut.quiet)) := by
  unfold updBlock
  by_cases h : f.toNat < Config.nDiffFields ∧ len ≤ maxLen
  · exact .inl ⟨h.1, h.2, dif_pos h⟩
  · exact .inr ⟨h, dif_neg h⟩

/-- An entry after `upd`: the new string in the field of an accepted update, else as it was. -/
theorem updBlock_entry (maxLen : Nat) (fc : CState) (f : BitVec 4) (len : Nat) (chr : List CharCode)
    (g : Fin Config.nDiffFields) :
    (updBlock maxLen fc f len chr).1[g] =
      if f.toNat = g.val ∧ len ≤ maxLen then FieldEntry.ofString len chr else fc[g] := by
  rcases updBlock_cases maxLen fc f len chr with ⟨hf, hl, e⟩ | ⟨hn, e⟩ <;> rw [e]
  · by_cases h : f.toNat = g.val
    · simp [h, hl]
    · simp [h]
  · have h : ¬ (f.toNat = g.val ∧ len ≤ maxLen) := fun h => hn ⟨h.1 ▸ g.isLt, h.2⟩
    rw [if_neg h]

end Sys2Proof.Machine
end

