-- ==== Sys2Proof/Laws/Decode.lean ====
section
/-! SUPPORT. What each block decodes to, case by case, and what a decoded operation says of the ports. -/

namespace Sys2Proof

theorem feedCase_of_magic (ctl : Ctl) (c : Chunk) (h : Machine.isMagic c = true) : feedCase ctl c = .feedMagic c :=
  if_pos h

theorem feedCase_of_idle (ctl : Ctl) (c : Chunk) (h : Machine.isMagic c = false) (hc : ctl.collecting = false) :
    feedCase ctl c = .feedIdle c := by
  simp [feedCase, h, hc]

theorem feedCase_of_overflow (ctl : Ctl) (c : Chunk) (h : Machine.isMagic c = false) (hc : ctl.collecting = true)
    (ho : 42 < ctl.cursor.toNat + 7) : feedCase ctl c = .feedOverflow c := by
  simp only [feedCase, h, hc, Config.bufCap, Config.chunkLen]
  simp [ho]

theorem feedCase_of_append (ctl : Ctl) (c : Chunk) (h : Machine.isMagic c = false) (hc : ctl.collecting = true)
    (hl : ctl.cursor.toNat + 7 < 37) : feedCase ctl c = .feedAppend c := by
  have ho : ¬ 42 < ctl.cursor.toNat + 7 := by omega
  simp only [feedCase, h, hc, Config.bufCap, Config.chunkLen, Config.reportLen]
  simp only [ho, hl]; rfl

theorem feedCase_of_complete (ctl : Ctl) (c : Chunk) (h : Machine.isMagic c = false) (hc : ctl.collecting = true)
    (ho : ctl.cursor.toNat + 7 ≤ 42) (hl : 37 ≤ ctl.cursor.toNat + 7) : feedCase ctl c = .feedComplete c := by
  have ho : ¬ 42 < ctl.cursor.toNat + 7 := by omega
  have hl : ¬ ctl.cursor.toNat + 7 < 37 := by omega
  simp only [feedCase, h, hc, Config.bufCap, Config.chunkLen, Config.reportLen]
  simp only [ho, hl]; rfl

/-- The five FEED cases and their conditions (R56), once: a chunk falls under exactly one. -/
theorem feedCase_cases (ctl : Ctl) (c : Chunk) :
    (Machine.isMagic c = true ∧ feedCase ctl c = .feedMagic c) ∨
    (Machine.isMagic c = false ∧ ctl.collecting = false ∧ feedCase ctl c = .feedIdle c) ∨
    (Machine.isMagic c = false ∧ ctl.collecting = true ∧ 42 < ctl.cursor.toNat + 7 ∧
      feedCase ctl c = .feedOverflow c) ∨
    (Machine.isMagic c = false ∧ ctl.collecting = true ∧ ctl.cursor.toNat + 7 < 37 ∧
      feedCase ctl c = .feedAppend c) ∨
    (Machine.isMagic c = false ∧ ctl.collecting = true ∧ ctl.cursor.toNat + 7 ≤ 42 ∧ 37 ≤ ctl.cursor.toNat + 7 ∧
      feedCase ctl c = .feedComplete c) := by
  cases h : Machine.isMagic c with
  | true => exact .inl ⟨rfl, feedCase_of_magic _ _ h⟩
  | false =>
    cases hc : ctl.collecting with
    | false => exact .inr (.inl ⟨rfl, rfl, feedCase_of_idle _ _ h hc⟩)
    | true =>
      by_cases ho : 42 < ctl.cursor.toNat + 7
      · exact .inr (.inr (.inl ⟨rfl, rfl, ho, feedCase_of_overflow _ _ h hc ho⟩))
      · by_cases hl : ctl.cursor.toNat + 7 < 37
        · exact .inr (.inr (.inr (.inl ⟨rfl, rfl, hl, feedCase_of_append _ _ h hc hl⟩)))
        · exact .inr (.inr (.inr (.inr ⟨rfl, rfl, by omega, by omega,
            feedCase_of_complete _ _ h hc (by omega) (by omega)⟩)))

theorem updCase_of_fits (n : Nat) (p : Pins) (hf : p.updField.toNat < 8) (hl : p.updLen ≤ n) :
    updCase n p = .upd p.updField p.updLen p.updChr := if_pos ⟨hf, hl⟩

theorem updCase_of_not_fits (n : Nat) (p : Pins) (h : ¬ (p.updField.toNat < 8 ∧ p.updLen ≤ n)) :
    updCase n p = .updRefused p.updField p.updLen := if_neg h

/-- What each strobed block answers, once. -/
theorem decode_reassembler_iff (ctl : Ctl) (p : Pins) (i : Instr) :
    decode .reassembler ctl p = .ok i ↔ p.rst = false ∧ p.chunkValid = true ∧ i = feedCase ctl p.chunkData := by
  simp only [decode, decodeAt]
  cases p.rst <;> cases p.chunkValid <;> simp [eq_comm]

theorem decode_detector_iff (ctl : Ctl) (p : Pins) (i : Instr) :
    decode .detector ctl p = .ok i ↔
      p.rst = false ∧ (ctl.reportValid = true ∨ p.evalStrobe = true) ∧ i = .eval p.nowMs := by
  simp only [decode, decodeAt]
  cases p.rst <;> cases ctl.reportValid <;> cases p.evalStrobe <;> simp [eq_comm]

theorem decode_cellDiff_iff (ctl : Ctl) (p : Pins) (i : Instr) :
    decode .cellDiff ctl p = .ok i ↔
      p.rst = false ∧ p.updValid = true ∧ i = updCase Config.fieldMaxLen p := by
  simp only [decode, decodeAt]
  cases p.rst <;> cases p.updValid <;> simp [eq_comm]

theorem decode_system_iff (ctl : Ctl) (p : Pins) (i : Instr) :
    decode .system ctl p = .ok i ↔ p.rst = true ∧ i = .reset := by
  simp only [decode, decodeAt]
  cases p.rst <;> simp [eq_comm]

theorem decode_decoder (ctl : Ctl) (p : Pins) : decode .decoder ctl p = .ok (decSelect p.decCs p.decAxis) := rfl

theorem decode_port (ctl : Ctl) (p : Pins) (r : ReadPort) : decode (.port r) ctl p = .ok (readPortInstr r) := rfl

end Sys2Proof
end

