-- ==== Sys2Proof/Laws/Memory.lean ====
section
/-! SUPPORT. The laws of the byte spaces: what a read gives after each store, and that each store keeps the
canonical form and the space's bound. -/

namespace Sys2Proof.Machine

@[simp] theorem Memory.read_nil (a : Nat) : Memory.read [] a = 0 := rfl

theorem Memory.read_cons (c : Host.Cell) (m : Memory) (a : Nat) :
    Memory.read (c :: m) a = if c.1 = a then c.2 else Memory.read m a := by
  cases c; rfl

/-- A space that lists no offset below or at `a` reads 0x00 there. -/
theorem Memory.read_of_lt (m : Memory) (a : Nat) (h : ∀ c ∈ m, a < c.1) : m.read a = 0 := by
  induction m with
  | nil => rfl
  | cons c m ih =>
    have hc : ¬ c.1 = a := by have := h c (by simp); omega
    rw [Memory.read_cons, if_neg hc]
    exact ih fun d hd => h d (by simp [hd])

theorem Memory.wf_cons (c : Host.Cell) (m : Memory) :
    Memory.wf (c :: m) = true ↔ c.2 ≠ 0 ∧ (∀ d ∈ m, c.1 < d.1) ∧ Memory.wf m = true := by
  obtain ⟨a, b⟩ := c
  simp [Memory.wf, and_assoc]

/-- Read after write, in a canonical space: the stored byte there, the old byte elsewhere. -/
theorem Memory.read_write (m : Memory) (a : Nat) (b : Byte) (x : Nat) (h : m.wf = true) :
    (m.write a b).read x = if x = a then b else m.read x := by
  induction m with
  | nil =>
    by_cases hb : b = 0
    · subst hb; simp [Memory.write]
    · have hw : Memory.write [] a b = [(a, b)] := if_neg hb
      rw [hw, Memory.read_cons]
      by_cases hx : x = a
      · simp [hx]
      · have : ¬ a = x := fun e => hx e.symm
        simp [hx, this]
  | cons c m ih =>
    obtain ⟨a', b'⟩ := c
    obtain ⟨hz, hlt, hm⟩ := (Memory.wf_cons _ _).1 h
    simp only [Memory.write]
    by_cases h1 : a < a'
    · rw [if_pos h1]
      have hold : x = a → Memory.read ((a', b') :: m) x = 0 := by
        intro hx
        exact Memory.read_of_lt _ _ (by
          intro d hd
          rcases List.mem_cons.1 hd with rfl | hd
          · simpa [hx] using h1
          · have := hlt d hd; simp at this; omega)
      by_cases hb : b = 0
      · rw [if_pos hb]
        by_cases hx : x = a
        · rw [if_pos hx, hold hx, hb]
        · rw [if_neg hx]
      · rw [if_neg hb, Memory.read_cons]
        by_cases hx : x = a
        · simp [hx]
        · have : ¬ a = x := fun e => hx e.symm
          simp [hx, this]
    · rw [if_neg h1]
      by_cases h2 : a = a'
      · subst h2
        rw [if_pos rfl]
        by_cases hb : b = 0
        · rw [if_pos hb, Memory.read_cons]
          by_cases hx : x = a
          · subst hx
            rw [if_pos rfl, hb]
            exact Memory.read_of_lt _ _ fun d hd => by simpa using hlt d hd
          · have : ¬ a = x := fun e => hx e.symm
            simp [hx, this]
        · rw [if_neg hb, Memory.read_cons, Memory.read_cons]
          by_cases hx : x = a
          · simp [hx]
          · have : ¬ a = x := fun e => hx e.symm
            simp [hx, this]
      · rw [if_neg h2, Memory.read_cons, Memory.read_cons, ih hm]
        by_cases hx : a' = x
        · have : ¬ x = a := by omega
          simp [hx, this]
        · simp [hx]

/-- A store lists no offset that was not listed but its own. -/
theorem Memory.mem_write {m : Memory} {a : Nat} {b : Byte} {c : Host.Cell} (h : c ∈ m.write a b) :
    c ∈ m ∨ c.1 = a := by
  induction m with
  | nil =>
    simp only [Memory.write] at h
    split at h
    · simp at h
    · simp at h; right; simp [h]
  | cons d m ih =>
    obtain ⟨a', b'⟩ := d
    simp only [Memory.write] at h
    split at h
    · split at h
      · exact .inl h
      · rcases List.mem_cons.1 h with rfl | h
        · exact .inr rfl
        · exact .inl h
    · split at h
      · split at h
        · exact .inl (List.mem_cons_of_mem _ h)
        · rcases List.mem_cons.1 h with rfl | h
          · exact .inr rfl
          · exact .inl (List.mem_cons_of_mem _ h)
      · rcases List.mem_cons.1 h with rfl | h
        · exact .inl (by simp)
        · rcases ih h with h | h
          · exact .inl (List.mem_cons_of_mem _ h)
          · exact .inr h

/-- A store keeps the canonical form. -/
theorem Memory.wf_write (m : Memory) (a : Nat) (b : Byte) (h : m.wf = true) : (m.write a b).wf = true := by
  induction m with
  | nil =>
    by_cases hb : b = 0
    · rw [show Memory.write [] a b = [] from if_pos hb]; rfl
    · rw [show Memory.write [] a b = [(a, b)] from if_neg hb, Memory.wf_cons]
      exact ⟨hb, by simp, rfl⟩
  | cons c m ih =>
    obtain ⟨a', b'⟩ := c
    obtain ⟨hz, hlt, hm⟩ := (Memory.wf_cons _ _).1 h
    simp only [Memory.write]
    by_cases h1 : a < a'
    · rw [if_pos h1]
      by_cases hb : b = 0
      · rw [if_pos hb]; exact h
      · rw [if_neg hb, Memory.wf_cons]
        refine ⟨hb, ?_, h⟩
        intro d hd
        rcases List.mem_cons.1 hd with rfl | hd
        · exact h1
        · have := hlt d hd; simp at this ⊢; omega
    · rw [if_neg h1]
      by_cases h2 : a = a'
      · rw [if_pos h2]
        by_cases hb : b = 0
        · rw [if_pos hb]; exact hm
        · rw [if_neg hb, Memory.wf_cons]
          exact ⟨hb, by simpa [h2] using hlt, hm⟩
      · rw [if_neg h2, Memory.wf_cons]
        refine ⟨hz, ?_, ih hm⟩
        intro d hd
        rcases Memory.mem_write hd with hd | hd
        · exact hlt d hd
        · simp; omega

/-- A store below the bound keeps the bound. -/
theorem Memory.within_write (n : Nat) (m : Memory) (a : Nat) (b : Byte) (h : m.within n = true) (ha : a < n) :
    (m.write a b).within n = true := by
  simp only [Memory.within, List.all_eq_true, decide_eq_true_eq] at *
  intro c hc
  rcases Memory.mem_write hc with hc | hc
  · exact h c hc
  · omega

@[simp] theorem Memory.writeBytes_nil (m : Memory) (a : Nat) : m.writeBytes a [] = m := rfl

@[simp] theorem Memory.writeBytes_cons (m : Memory) (a : Nat) (b : Byte) (bs : List Byte) :
    m.writeBytes a (b :: bs) = (m.write a b).writeBytes (a + 1) bs := rfl

/-- A store of several bytes keeps the canonical form. -/
theorem Memory.wf_writeBytes (m : Memory) (a : Nat) (bs : List Byte) (h : m.wf = true) :
    (m.writeBytes a bs).wf = true := by
  induction bs generalizing m a with
  | nil => exact h
  | cons b bs ih => exact ih _ _ (Memory.wf_write _ _ _ h)

/-- A store of several bytes below the bound keeps the bound. -/
theorem Memory.within_writeBytes (n : Nat) (m : Memory) (a : Nat) (bs : List Byte) (h : m.within n = true)
    (ha : a + bs.length ≤ n) : (m.writeBytes a bs).within n = true := by
  induction bs generalizing m a with
  | nil => exact h
  | cons b bs ih =>
    simp only [List.length_cons] at ha
    exact ih _ _ (Memory.within_write _ _ _ _ h (by omega)) (by omega)

/-- Read after a store of several bytes: the stored bytes where they lie, the old bytes elsewhere. -/
theorem Memory.read_writeBytes (m : Memory) (a : Nat) (bs : List Byte) (x : Nat) (h : m.wf = true) :
    (m.writeBytes a bs).read x = if a ≤ x ∧ x < a + bs.length then bs.getD (x - a) 0 else m.read x := by
  induction bs generalizing m a with
  | nil =>
    have : ¬ (a ≤ x ∧ x < a) := by omega
    simp [this]
  | cons b bs ih =>
    rw [Memory.writeBytes_cons, ih _ _ (Memory.wf_write _ _ _ h), Memory.read_write _ _ _ _ h]
    simp only [List.length_cons]
    by_cases hx : x = a
    · subst hx
      simp
    · by_cases hr : a + 1 ≤ x ∧ x < a + 1 + bs.length
      · have h1 : a ≤ x ∧ x < a + (bs.length + 1) := by omega
        have h2 : x - a = (x - (a + 1)) + 1 := by omega
        rw [if_pos hr, if_pos h1, h2, List.getD_cons_succ]
      · have h1 : ¬ (a ≤ x ∧ x < a + (bs.length + 1)) := by omega
        rw [if_neg hr, if_neg h1, if_neg hx]

/-- The copy `A[0..n-1]`: the bytes below `n` as they are, 0x00 beyond. -/
theorem Memory.read_below (n : Nat) (m : Memory) (x : Nat) :
    (m.below n).read x = if x < n then m.read x else 0 := by
  induction m with
  | nil => simp [Memory.below]
  | cons c m ih =>
    have hb : Memory.below n (c :: m) = if c.1 < n then c :: Memory.below n m else Memory.below n m := by
      simp [Memory.below, List.filter_cons]
    rw [hb, Memory.read_cons]
    by_cases hc : c.1 < n
    · rw [if_pos hc, Memory.read_cons, ih]
      by_cases hx : c.1 = x
      · have : x < n := by omega
        simp [hx, this]
      · simp [hx]
    · rw [if_neg hc, ih]
      by_cases hx : x < n
      · have : ¬ c.1 = x := by omega
        simp [hx, this]
      · simp [hx]

theorem Memory.wf_below (n : Nat) (m : Memory) (h : m.wf = true) : (m.below n).wf = true := by
  induction m with
  | nil => rfl
  | cons c m ih =>
    obtain ⟨hz, hlt, hm⟩ := (Memory.wf_cons _ _).1 h
    have hb : Memory.below n (c :: m) = if c.1 < n then c :: Memory.below n m else Memory.below n m := by
      simp [Memory.below, List.filter_cons]
    rw [hb]
    split
    · rw [Memory.wf_cons]
      exact ⟨hz, fun d hd => hlt d (List.mem_of_mem_filter hd), ih hm⟩
    · exact ih hm

theorem Memory.within_below (n : Nat) (m : Memory) : (m.below n).within n = true := by
  simp [Memory.within, Memory.below]

@[simp] theorem Memory.wf_nil : Memory.wf [] = true := rfl
@[simp] theorem Memory.within_nil (n : Nat) : Memory.within n [] = true := rfl

@[simp] theorem chunkBytes_length (c : Chunk) : (chunkBytes c).length = 7 := by simp [chunkBytes]

@[simp] theorem chunkBytes_getD (c : Chunk) (i : Nat) (h : i < 7) : (chunkBytes c).getD i 0 = chunkByte c i := by
  simp [chunkBytes, List.getD, h]

/-- A chunk stored at an offset of a canonical space. -/
theorem Memory.read_writeChunk (m : Memory) (a : Nat) (c : Chunk) (x : Nat) (h : m.wf = true) :
    (m.writeBytes a (chunkBytes c)).read x = if a ≤ x ∧ x < a + 7 then chunkByte c (x - a) else m.read x := by
  rw [Memory.read_writeBytes _ _ _ _ h, chunkBytes_length]
  by_cases hx : a ≤ x ∧ x < a + 7
  · rw [if_pos hx, if_pos hx, chunkBytes_getD _ _ (by omega)]
  · rw [if_neg hx, if_neg hx]

end Sys2Proof.Machine
end

