-- ==== Sys2Proof/Laws/Operands.lean ====
section
/-! SUPPORT. What the operand and flag computations give, as numbers and as conditions. -/

namespace Sys2Proof.Machine

/-- The value of `u16le` (R33). -/
theorem u16le_toNat (m : Memory) (o : Nat) : (u16le m o).toNat = (m.read o).toNat + 256 * (m.read (o + 1)).toNat := by
  have h := (m.read o).isLt
  simp only [u16le, BitVec.toNat_append]
  rw [Nat.shiftLeft_eq, Nat.mul_comm, ← Nat.two_pow_add_eq_or_of_lt h]
  omega

/-- The value of a packed raw encoding from its two halves (R50). -/
theorem slotEnc_toNat (m : Memory) (k : Nat) :
    (slotEnc m k).toNat = (intPart m k).toNat + 65536 * (fracField m k).toNat := by
  have h := (intPart m k).isLt
  simp only [slotEnc, BitVec.toNat_append]
  rw [Nat.shiftLeft_eq, Nat.mul_comm, ← Nat.two_pow_add_eq_or_of_lt h]
  omega

/-- The fraction is the field's low 15 bits (R49). -/
theorem fracNum_toNat (fld : Half) : (fracNum fld).toNat = fld.toNat % 32768 := by
  simp only [fracNum, BitVec.toNat_and]
  exact Nat.and_two_pow_sub_one_eq_mod fld.toNat 15

/-- The sign is the field's top bit (R49). -/
theorem fracSign_iff (fld : Half) : fracSign fld = true ↔ 32768 ≤ fld.toNat := by
  have : fracSign fld = fld.msb := by simp [fracSign, BitVec.msb_eq_getLsbD_last]
  rw [this, BitVec.msb_eq_decide, decide_eq_true_eq]

/-- The magnitude is exact: 30 bits are enough (R90). -/
theorem magnitude_toNat (int fld : Half) : (magnitude int fld).toNat = int.toNat * 10000 + fld.toNat % 32768 := by
  have h1 := int.isLt
  have h2 : fld.toNat % 32768 < 32768 := Nat.mod_lt _ (by decide)
  simp only [magnitude, BitVec.toNat_ofNat, fracNum_toNat, Config.scale, Config.magW]
  exact Nat.mod_eq_of_lt (by omega)

theorem barPct_toNat (v : Half) : (barPct v).toNat = min v.toNat 100 := by
  simp only [barPct, BitVec.toNat_ofNat, Config.barMax]
  exact Nat.mod_eq_of_lt (by omega)

@[simp] theorem encodings_get (m : Memory) (k : Fin Config.nSlots) : (encodings m)[k] = slotEnc m k := by
  simp [encodings]

/-- A lane is changed when it is unset or differs (R102). -/
theorem changedLanes_get (d : DState) (enc : Vector Encoding Config.nSlots) (k : Fin Config.nSlots) :
    (changedLanes d enc)[k] = true ↔ d.pdcValid[k] = false ∨ d.pdcEnc[k] ≠ enc[k] := by
  simp [changedLanes]

/-- `pos_dirty` is the OR of the lanes (R103). -/
theorem posDirtyOf_iff (ch : Vector Bool Config.nSlots) :
    posDirtyOf ch = true ↔ ∃ k : Fin Config.nSlots, ch[k] = true := by
  simp [posDirtyOf]

theorem elapsed_toNat (now last : Millis) : (elapsed now last).toNat = (now.toNat + 2 ^ 32 - last.toNat) % 2 ^ 32 := by
  have : last.toNat < 2 ^ 32 := last.isLt
  simp only [elapsed, BitVec.toNat_sub, Config.nowW]
  congr 1; omega

theorem refreshDueAt_iff (now last : Millis) : refreshDueAt now last = true ↔ 500 < (elapsed now last).toNat := by
  simp [refreshDueAt]

/-- EVAL's decision (R105). -/
theorem evalOut_redraw (d : DState) (enc : Vector Encoding Config.nSlots) (now : Millis) :
    (evalOut d enc now).redraw = ((evalOut d enc now).posDirty || (evalOut d enc now).refreshDue) := rfl

/-- A string's characters in the entry that holds it (R119). -/
theorem FieldEntry.ofString_read (n : Nat) (chr : List CharCode) (i : Nat) :
    (FieldEntry.ofString n chr).chr.read i = if i < n then chrAt chr i else 0 := by
  simp only [FieldEntry.ofString]
  rw [Memory.read_writeBytes _ _ _ _ Memory.wf_nil]
  by_cases h : i < n
  · simp [h, List.getD]
  · simp [h]

theorem FieldEntry.ofString_wf (n : Nat) (chr : List CharCode) : (FieldEntry.ofString n chr).chr.wf = true :=
  Memory.wf_writeBytes _ _ _ Memory.wf_nil

theorem FieldEntry.ofString_within (n b : Nat) (chr : List CharCode) (h : n ≤ b) :
    (FieldEntry.ofString n chr).chr.within b = true :=
  Memory.within_writeBytes _ _ _ _ (Memory.within_nil b) (by simpa using h)

/-- What the ports show of a UPD in a cell (R118): the cell's operation, and NONE past the last cell. -/
theorem cellShown_diffOut (maxLen : Nat) (e : FieldEntry) (len : Nat) (chr : List CharCode) (p : Nat) :
    cellShown (diffOut maxLen e len chr).cells p = if p < maxLen then cellOpAt e len chr p else .none := by
  simp only [diffOut]
  induction maxLen with
  | zero => rfl
  | succ n ih =>
    rw [List.range_succ, List.filterMap_append]
    by_cases hn : cellOpAt e len chr n = .none
    · simp only [List.filterMap_cons, hn, if_true, List.filterMap_nil, List.append_nil]
      rw [ih]
      by_cases hp : p = n
      · subst hp; simp [hn]
      · by_cases h : p < n
        · have : p < n + 1 := by omega
          simp [h, this]
        · have : ¬ p < n + 1 := by omega
          simp [h, this]
    · simp only [List.filterMap_cons, hn, if_false, List.filterMap_nil]
      unfold cellShown at ih ⊢
      rw [List.find?_append]
      by_cases hp : p < n
      · have h2 : p < n + 1 := by omega
        rw [if_pos hp] at ih
        rw [if_pos h2]
        cases hf : List.find? (fun c => c.1 == p) (List.filterMap (fun q => if cellOpAt e len chr q = .none then Option.none
            else some (q, cellOpAt e len chr q)) (List.range n)) with
        | some v => rw [hf] at ih; simpa using ih
        | none =>
          rw [hf] at ih
          have : ¬ n = p := by omega
          simpa [this] using ih
      · have hnone : List.find? (fun c => c.1 == p) (List.filterMap (fun q => if cellOpAt e len chr q = .none then Option.none
            else some (q, cellOpAt e len chr q)) (List.range n)) = Option.none := by
          rw [List.find?_eq_none]
          intro c hc
          rw [List.mem_filterMap] at hc
          obtain ⟨q, hq, hqc⟩ := hc
          split at hqc
          · exact absurd hqc (by simp)
          · have : c.1 = q := by rw [← Option.some.inj hqc]
            simp at hq ⊢
            omega
        rw [hnone]
        by_cases hpn : p = n
        · subst hpn; simp
        · have h3 : ¬ n = p := fun e => hpn e.symm
          have h4 : ¬ p < n + 1 := by omega
          simp [h3, h4]

/-- `op_any` (R118). -/
theorem diffOut_opAny (maxLen : Nat) (e : FieldEntry) (len : Nat) (chr : List CharCode) :
    (diffOut maxLen e len chr).opAny = true ↔ ∃ p < maxLen, cellOpAt e len chr p ≠ .none := by
  simp [diffOut]

end Sys2Proof.Machine
end

