-- ==== Sys2Proof/Laws/PerInstr.lean ====
section
/-! SUPPORT. Statements about every operation as syntax, one lemma per constructor. -/

namespace Sys2Proof.Laws

/-- The port values that select an operation raise the strobe of its own block and of no other (R56, R130). -/
def EncodeStrobes.Statement (i : Instr) : Prop :=
  (encode i).rst = decide (i.block = .system) ∧ (encode i).chunkValid = decide (i.block = .reassembler) ∧
    (encode i).evalStrobe = decide (i.block = .detector) ∧ (encode i).updValid = decide (i.block = .cellDiff)

theorem EncodeStrobes.reset : EncodeStrobes.Statement .reset := ⟨rfl, rfl, rfl, rfl⟩
theorem EncodeStrobes.feedMagic (chunk : Chunk) : EncodeStrobes.Statement (.feedMagic chunk) := ⟨rfl, rfl, rfl, rfl⟩
theorem EncodeStrobes.feedIdle (chunk : Chunk) : EncodeStrobes.Statement (.feedIdle chunk) := ⟨rfl, rfl, rfl, rfl⟩
theorem EncodeStrobes.feedOverflow (chunk : Chunk) : EncodeStrobes.Statement (.feedOverflow chunk) := ⟨rfl, rfl, rfl, rfl⟩
theorem EncodeStrobes.feedAppend (chunk : Chunk) : EncodeStrobes.Statement (.feedAppend chunk) := ⟨rfl, rfl, rfl, rfl⟩
theorem EncodeStrobes.feedComplete (chunk : Chunk) : EncodeStrobes.Statement (.feedComplete chunk) := ⟨rfl, rfl, rfl, rfl⟩
theorem EncodeStrobes.decWcx : EncodeStrobes.Statement .decWcx := ⟨rfl, rfl, rfl, rfl⟩
theorem EncodeStrobes.decWcy : EncodeStrobes.Statement .decWcy := ⟨rfl, rfl, rfl, rfl⟩
theorem EncodeStrobes.decWcz : EncodeStrobes.Statement .decWcz := ⟨rfl, rfl, rfl, rfl⟩
theorem EncodeStrobes.decMcx : EncodeStrobes.Statement .decMcx := ⟨rfl, rfl, rfl, rfl⟩
theorem EncodeStrobes.decMcy : EncodeStrobes.Statement .decMcy := ⟨rfl, rfl, rfl, rfl⟩
theorem EncodeStrobes.decMcz : EncodeStrobes.Statement .decMcz := ⟨rfl, rfl, rfl, rfl⟩
theorem EncodeStrobes.decOor (cs : Bool) : EncodeStrobes.Statement (.decOor cs) := ⟨rfl, rfl, rfl, rfl⟩
theorem EncodeStrobes.getMagic : EncodeStrobes.Statement .getMagic := ⟨rfl, rfl, rfl, rfl⟩
theorem EncodeStrobes.getKey : EncodeStrobes.Statement .getKey := ⟨rfl, rfl, rfl, rfl⟩
theorem EncodeStrobes.getFeedOvr : EncodeStrobes.Statement .getFeedOvr := ⟨rfl, rfl, rfl, rfl⟩
theorem EncodeStrobes.getSpindleOvr : EncodeStrobes.Statement .getSpindleOvr := ⟨rfl, rfl, rfl, rfl⟩
theorem EncodeStrobes.getFeed : EncodeStrobes.Statement .getFeed := ⟨rfl, rfl, rfl, rfl⟩
theorem EncodeStrobes.getSpindle : EncodeStrobes.Statement .getSpindle := ⟨rfl, rfl, rfl, rfl⟩
theorem EncodeStrobes.getStep : EncodeStrobes.Statement .getStep := ⟨rfl, rfl, rfl, rfl⟩
theorem EncodeStrobes.getState : EncodeStrobes.Statement .getState := ⟨rfl, rfl, rfl, rfl⟩
theorem EncodeStrobes.eval (now : Millis) : EncodeStrobes.Statement (.eval now) := ⟨rfl, rfl, rfl, rfl⟩
theorem EncodeStrobes.upd (field : BitVec 4) (len : Nat) (chr : List CharCode) : EncodeStrobes.Statement (.upd field len chr) := ⟨rfl, rfl, rfl, rfl⟩
theorem EncodeStrobes.updRefused (field : BitVec 4) (len : Nat) : EncodeStrobes.Statement (.updRefused field len) := ⟨rfl, rfl, rfl, rfl⟩
theorem EncodeStrobes.barFeed : EncodeStrobes.Statement .barFeed := ⟨rfl, rfl, rfl, rfl⟩
theorem EncodeStrobes.barSpindle : EncodeStrobes.Statement .barSpindle := ⟨rfl, rfl, rfl, rfl⟩

end Sys2Proof.Laws
end

