-- ==== Sys2Proof/Laws/Step.lean ====
section
/-! SUPPORT. What each shared operation can answer, which operations a cycle holds, and what a step is made of. -/

namespace Sys2Proof.Machine

/-- Where a storing FEED case goes on, and what it leaves; where it stops. -/
theorem State.storing_cases (s : State) (r : RState) (o : Host.Outcome State Fault Refusal) (h : s.storing r = o) :
    (s.asm.cursor.toNat + 7 ≤ 42 ∧ o = .next { s with asm := r }) ∨
    (42 < s.asm.cursor.toNat + 7 ∧ o = .fault (.bufferRange (s.asm.cursor.toNat + 6))) := by
  unfold State.storing at h
  split at h
  · exact .inl ⟨by assumption, h.symm⟩
  · rename_i hc
    exact .inr ⟨Nat.lt_of_not_le hc, h.symm⟩

theorem State.storing_next (s : State) (r : RState) (h : s.asm.cursor.toNat + 7 ≤ 42) :
    s.storing r = .next { s with asm := r } := if_pos h

/-- Where UPD goes on, and what it leaves; where it stops. -/
theorem updateField_cases (maxLen : Nat) (f : BitVec 4) (len : Nat) (chr : List CharCode) (s : State)
    (o : Host.Outcome State Fault Refusal) (h : updateField maxLen f len chr s = o) :
    (∃ hf : f.toNat < Config.nDiffFields, len ≤ maxLen ∧
      o = .next { s with
        cells := s.cells.set f.toNat (FieldEntry.ofString len chr) hf
        out := { s.out with diff := diffOut maxLen (s.cells[f.toNat]'hf) len chr } }) ∨
    (¬ (f.toNat < Config.nDiffFields ∧ len ≤ maxLen) ∧ o = .fault (.cacheRange f len)) := by
  unfold updateField at h
  split at h
  · rename_i hc
    exact .inl ⟨hc.1, hc.2, h.symm⟩
  · exact .inr ⟨by assumption, h.symm⟩

@[simp] theorem runOps_nil (s : State) : runOps [] s = .next s := rfl

/-- An operation that goes on is followed by the rest of the cycle. -/
theorem runOps_cons (i : Instr) (is : List Instr) (s t : State) (h : exec i s = .next t) :
    runOps (i :: is) s = runOps is t := by
  simp [runOps, h]

theorem runOps_append (is js : List Instr) (s t : State) (h : runOps is s = .next t) :
    runOps (is ++ js) s = runOps js t := by
  induction is generalizing s with
  | nil => cases h; rfl
  | cons i is ih =>
    simp only [runOps, List.cons_append] at h ⊢
    split at h
    · exact ih _ h
    · cases h
    · cases h

/-- The operations of a cycle, written out (R56): the ten always active ports and the decoder, then what the
strobes select, RESET last. -/
theorem cycleOps_eq (ctl : Ctl) (p : Pins) :
    cycleOps ctl p =
      [.getMagic, .getKey, .getFeedOvr, .getSpindleOvr, .getFeed, .getSpindle, .getStep, .getState, .barFeed,
        .barSpindle, decSelect p.decCs p.decAxis] ++
      (if ctl.reportValid || p.evalStrobe then [.eval p.nowMs] else []) ++
      (if p.updValid then [updCase Config.fieldMaxLen p] else []) ++
      (if p.chunkValid then [feedCase ctl p.chunkData] else []) ++
      (if p.rst then [.reset] else []) := by
  have ok : ∀ i : Instr, (Except.ok i : Except DecodeError Instr).toOption = some i := fun _ => rfl
  have no : ∀ e : DecodeError, (Except.error e : Except DecodeError Instr).toOption = none := fun _ => rfl
  unfold cycleOps cycleOpsAt cycleBlocks
  cases h1 : (ctl.reportValid || p.evalStrobe) <;> cases h2 : p.updValid <;> cases h3 : p.chunkValid <;>
    simp [decodeAt, readPortInstr, updCase, h1, ok, no]

/-- What the ten always active ports leave (R92 to R99, R123, R124): output ports only. -/
theorem runOps_ports (s : State) (is : List Instr) :
    runOps ([.getMagic, .getKey, .getFeedOvr, .getSpindleOvr, .getFeed, .getSpindle, .getStep, .getState, .barFeed,
        .barSpindle] ++ is) s =
      runOps is { s with out := { s.out with
        fMagic := u16le s.asm.rpt 0, fKey := u8 s.asm.rpt 2, fFeedOvr := u16le s.asm.rpt 27
        fSpindleOvr := u16le s.asm.rpt 29, fFeed := u16le s.asm.rpt 31, fSpindle := u16le s.asm.rpt 33
        fStep := u8 s.asm.rpt 35, fState := u8 s.asm.rpt 36, barFeedPct := barPct (u16le s.asm.rpt 27)
        barSpindlePct := barPct (u16le s.asm.rpt 29) } } := rfl

/-- A step is its cycle's operations between the start and the end of the cycle. -/
theorem step_of_runOps (s t : State) (h : runOps (cycleOps s.ctl s.pins) s.beginCycle = .next t) :
    step s = .next t.endCycle := by
  simp [step, runCycle, h]

end Sys2Proof.Machine
end

