-- ==== Sys2Proof/Tests/Slice0.lean ====
section
/-! SUPPORT. Tests. Every expected value is from spec/95_test_vectors.md (section numbers in the comments) or is
written out from the rule named; every witness shows a state and operands that meet a statement's hypotheses. -/

namespace Sys2Proof.Tests

open Sys2Proof.Machine

/-! ### Helpers -/

/-- The bytes of report V1 (section 2.1). -/
def v1Bytes : List Byte :=
  [0xFE, 0xFD, 0x5A, 0x64, 0x00, 0x32, 0x80, 0x00, 0x00, 0x00, 0x00, 0x0C, 0x00, 0x80, 0x0D, 0xFF, 0x0F, 0x0F, 0xA7] ++
  [0xFF, 0xFF, 0xFF, 0x7F, 0x00, 0x00, 0x00, 0x80, 0x64, 0x00, 0x78, 0x00, 0xDC, 0x05, 0xC0, 0x5D, 0x0A, 0x01]

/-- V1 as a byte space. -/
def v1 : Memory := Memory.writeBytes [] 0 v1Bytes

/-- The first chunk of V1, `FE FD 5A 64 00 32 80`. -/
def c0 : Chunk := 0x803200645AFDFE
/-- The second chunk of V1, `00 00 00 00 0C 00 80`. -/
def c1 : Chunk := 0x80000C00000000
/-- The last chunk of V1, `0A 01 AA BB CC DD EE`. -/
def c5 : Chunk := 0xEEDDCCBBAA010A

/-- Reset, but with a held report. -/
def holding (rpt : Memory) : State := { State.reset with asm := { RState.reset with rpt := rpt, rptFull := true } }

/-- Reset, but collecting, with the first `n` bytes of V1 in the buffer and the cursor behind them. -/
def collected (n : Nat) : State :=
  { State.reset with
    asm := { RState.reset with
      buf := Memory.writeBytes [] 0 (v1Bytes.take n), cursor := BitVec.ofNat _ n, collecting := true } }

/-- V1 held, and already seen by an EVAL at time 1000 (section 2.5). -/
def seen : State := { holding v1 with gate := (DState.reset).afterEval (encodings v1) 1000 }

/-- Reset, but with a string in field 0. -/
def cached (len : Nat) (chr : List CharCode) : State :=
  { State.reset with cells := CState.reset.set 0 (FieldEntry.ofString len chr) }

/-- `"+0.0000"` (X2). -/
def plusZero : List CharCode := [0x2B, 0x30, 0x2E, 0x30, 0x30, 0x30, 0x30]
/-- `"+1.0000"` (X2). -/
def plusOne : List CharCode := [0x2B, 0x31, 0x2E, 0x30, 0x30, 0x30, 0x30]

/-- The state an outcome goes on to. -/
def after : Host.Outcome State Fault Refusal → Option State
  | .next t => some t
  | .fault _ => none
  | .refused _ => none

/-- Any chunk on the port, with its strobe. -/
def feeding (c : Chunk) : Pins := { Pins.idle with chunkValid := true, chunkData := c }

/-! ### Well-formedness: an ill-formed term for each check -/

theorem test_wf_feedMagic : (Instr.feedMagic c1).wellFormedAt 9 = false := by decide
theorem test_wf_feedIdle : (Instr.feedIdle c0).wellFormedAt 9 = false := by decide
theorem test_wf_feedOverflow : (Instr.feedOverflow c0).wellFormedAt 9 = false := by decide
theorem test_wf_feedAppend : (Instr.feedAppend c0).wellFormedAt 9 = false := by decide
theorem test_wf_feedComplete : (Instr.feedComplete c0).wellFormedAt 9 = false := by decide
theorem test_wf_upd_field : (Instr.upd 8 1 [0x30]).wellFormedAt 9 = false := by decide
theorem test_wf_upd_len : (Instr.upd 0 10 []).wellFormedAt 9 = false := by decide
theorem test_wf_upd_lanes : (Instr.upd 0 1 (List.replicate 10 0x30)).wellFormedAt 9 = false := by decide
theorem test_wf_upd_ok : (Instr.upd 7 9 (List.replicate 9 0x30)).wellFormedAt 9 = true := by decide
theorem test_wf_updRefused_accepted : (Instr.updRefused 7 9).wellFormedAt 9 = false := by decide
theorem test_wf_updRefused_width : (Instr.updRefused 8 16).wellFormedAt 9 = false := by decide
theorem test_wf_updRefused_ok : (Instr.updRefused 7 10).wellFormedAt 9 = true := by decide
theorem test_wf_pins_len : ({ Pins.idle with updLen := 16 }).wellFormedAt 9 = false := by decide
theorem test_wf_pins_lanes : ({ Pins.idle with updChr := List.replicate 10 0 }).wellFormedAt 9 = false := by decide
/-- `LEN_W` is 4 for 9 and 8 characters, 3 for 7, 1 for 1 (R4: ceil(log2(FIELD_MAXLEN + 1))). -/
theorem test_lenWidth : [9, 8, 7, 1].map Config.lenWidth = [4, 4, 3, 1] := by decide

/-! ### Decoding: words written out from R46, R53, R54, R56 -/

theorem test_decode_reset : decodeAt 9 .system Ctl.reset { Pins.idle with rst := true } = .ok .reset := by decide
theorem test_decode_feedMagic : decodeAt 9 .reassembler Ctl.reset (feeding 0x803200645AFDFE) = .ok (.feedMagic c0) := by
  decide
/-- A magic chunk wins in every control state (section 2.4). -/
theorem test_decode_feedMagic_mid :
    decodeAt 9 .reassembler { collecting := true, cursor := 35, reportValid := false } (feeding c0) =
      .ok (.feedMagic c0) := by decide
theorem test_decode_feedIdle : decodeAt 9 .reassembler Ctl.reset (feeding c1) = .ok (.feedIdle c1) := by decide
theorem test_decode_feedAppend :
    decodeAt 9 .reassembler { collecting := true, cursor := 28, reportValid := false } (feeding c1) =
      .ok (.feedAppend c1) := by decide
theorem test_decode_feedComplete :
    decodeAt 9 .reassembler { collecting := true, cursor := 35, reportValid := false } (feeding c5) =
      .ok (.feedComplete c5) := by decide
theorem test_decode_feedOverflow :
    decodeAt 9 .reassembler { collecting := true, cursor := 42, reportValid := false } (feeding c1) =
      .ok (.feedOverflow c1) := by decide
theorem test_decode_noChunk :
    decodeAt 9 .reassembler Ctl.reset Pins.idle = .error (.noStrobe .reassembler) := by decide
/-- The eight values of `sel` (R53). -/
theorem test_decode_sel :
    (List.range 8).map (fun sel => decodeTableWord 8 sel) =
      [some .decWcx, some .decWcy, some .decWcz, some (.decOor false), some .decMcx, some .decMcy, some .decMcz,
       some (.decOor true)] := by decide
/-- The word FDFE of spec/opcode_table.json is a magic chunk. -/
theorem test_decode_tableMagic : decodeTableWord 56 0xFDFE = some (.feedMagic 0xFDFE) := by decide
theorem test_decode_ports :
    [ReadPort.magic, .key, .feedOvr, .spindleOvr, .feed, .spindle, .step, .state, .barFeed, .barSpindle].map
        (fun r => decodeAt 9 (.port r) Ctl.reset Pins.idle) =
      [.ok .getMagic, .ok .getKey, .ok .getFeedOvr, .ok .getSpindleOvr, .ok .getFeed, .ok .getSpindle, .ok .getStep,
       .ok .getState, .ok .barFeed, .ok .barSpindle] := by decide
theorem test_decode_eval :
    decodeAt 9 .detector { Ctl.reset with reportValid := true } { Pins.idle with nowMs := 1000 } =
      .ok (.eval 1000) := by decide
theorem test_decode_eval_standalone :
    decodeAt 9 .detector Ctl.reset { Pins.idle with evalStrobe := true } = .ok (.eval 0) := by decide
theorem test_decode_upd :
    decodeAt 9 .cellDiff Ctl.reset { Pins.idle with updValid := true, updField := 7, updLen := 9 } =
      .ok (.upd 7 9 []) := by decide
theorem test_decode_updRefused_field :
    decodeAt 9 .cellDiff Ctl.reset { Pins.idle with updValid := true, updField := 8, updLen := 2 } =
      .ok (.updRefused 8 2) := by decide
theorem test_decode_updRefused_len :
    decodeAt 9 .cellDiff Ctl.reset { Pins.idle with updValid := true, updLen := 10 } = .ok (.updRefused 0 10) := by
  decide
/-- Seven bytes are a chunk, byte 0 in the low lane (R46); six are refused by name (R45). -/
theorem test_chunkOfBytes : chunkOfBytes [0xFE, 0xFD, 0x5A, 0x64, 0x00, 0x32, 0x80] = .ok c0 := by decide
theorem test_chunkOfBytes_short : chunkOfBytes [0xFE, 0xFD, 0, 0, 0, 0] = .error (.chunkLength 6) := by decide
/-- The magic test's table of section 2.4. -/
theorem test_isMagic :
    ([0x0000000000FDFE, 0xFFFFFFFFFFFDFE, 0x803200645AFEFD, 0x00000000FDFE00, 0x00000000FD00FE, 0x000000FDFDFEFE,
      0xFDFE0000000000] : List Chunk).map isMagic = [true, true, false, false, false, false, false] := by decide

/-! ### One step of each operation (sections 2.1 to 2.6) -/

theorem test_reset :
    (after (exec .reset seen)).map (fun t => (t.asm, t.gate, t.cells)) =
      some (State.reset.asm, State.reset.gate, State.reset.cells) := by decide
theorem test_feedMagic :
    (after (exec (.feedMagic c0) (collected 21))).map (fun t => (t.asm.buf, t.asm.cursor, t.asm.collecting)) =
      some ([(0, 0xFE), (1, 0xFD), (2, 0x5A), (3, 0x64), (5, 0x32), (6, 0x80)], 7, true) := by decide
theorem test_feedIdle :
    (after (exec (.feedIdle c1) (holding v1))).map (·.asm) = some (holding v1).asm := by decide
theorem test_feedOverflow :
    (after (exec (.feedOverflow c1) (collected 42))).map (fun t => (t.asm.collecting, t.asm.cursor)) =
      some (false, 42) := by decide
theorem test_feedAppend :
    (after (exec (.feedAppend c1) (collected 7))).map (fun t => (t.asm.buf, t.asm.cursor)) =
      some ([(0, 0xFE), (1, 0xFD), (2, 0x5A), (3, 0x64), (5, 0x32), (6, 0x80), (11, 0x0C), (13, 0x80)], 14) := by decide
theorem test_feedComplete :
    (after (exec (.feedComplete c5) (collected 35))).map
        (fun t => (decide (t.asm.rpt = v1), t.asm.buf.read 41, t.asm.cursor, t.asm.collecting, t.asm.rptFull)) =
      some (true, 0xEE, 42, false, true) := by decide
theorem test_dec_v1 :
    [Instr.decWcx, .decWcy, .decWcz, .decMcx, .decMcy, .decMcz, .decOor true].map
        (fun i => (after (exec i (holding v1))).map fun t => (t.out.decSign, t.out.decMag)) =
      [some (true, 1000050), some (false, 0), some (false, 123456), some (true, 40959999), some (false, 655382767),
       some (true, 0), some (false, 0)] := by decide
theorem test_get_v1 :
    [(after (exec .getMagic (holding v1))).map (·.out.fMagic), (after (exec .getFeedOvr (holding v1))).map (·.out.fFeedOvr),
     (after (exec .getSpindleOvr (holding v1))).map (·.out.fSpindleOvr),
     (after (exec .getFeed (holding v1))).map (·.out.fFeed), (after (exec .getSpindle (holding v1))).map (·.out.fSpindle)] =
      [some 0xFDFE, some 100, some 120, some 1500, some 24000] := by decide
theorem test_getByte_v1 :
    [(after (exec .getKey (holding v1))).map (·.out.fKey), (after (exec .getStep (holding v1))).map (·.out.fStep),
     (after (exec .getState (holding v1))).map (·.out.fState)] = [some 0x5A, some 10, some 1] := by decide
theorem test_bars_v1 :
    [(after (exec .barFeed (holding v1))).map (·.out.barFeedPct),
     (after (exec .barSpindle (holding v1))).map (·.out.barSpindlePct)] = [some 100, some 100] := by decide
/-- The table of section 2.3. -/
theorem test_barPct :
    ([0, 1, 50, 99, 100, 101, 120, 255, 256, 65535] : List Half).map barPct =
      [0, 1, 50, 99, 100, 100, 100, 100, 100, 100] := by decide
/-- The improper fraction and the all-ones slot of section 2.2. -/
theorem test_magnitude :
    [magnitude 0 0x2710, magnitude 4095 0xA70F, magnitude 65535 0xFFFF] = [10000, 40959999, 655382767] := by decide
/-- The first row of section 2.5, with the encodings of V1. -/
theorem test_eval_first :
    (after (exec (.eval 1000) (holding v1))).map (fun t => (t.out.det, t.gate.pdcEnc, t.gate.lastRedrawMs)) =
      some ({ changed := #v[true, true, true, true, true, true], posDirty := true, refreshDue := true, redraw := true },
        #v[0x80320064, 0, 0x0D80000C, 0xA70F0FFF, 0x7FFFFFFF, 0x80000000], 1000) := by decide
/-- Rows 3 and 4 of section 2.5 (exactly 500 ms, then 501), and the wrapped counter of P3, lines 13 to 15. -/
theorem test_eval_refresh :
    ([(1500, 1000), (1501, 1000), (5, 0xFFFFFFF0), (484, 0xFFFFFFF0), (485, 0xFFFFFFF0)] : List (Millis × Millis)).map
        (fun r => refreshDueAt r.1 r.2) = [false, true, false, false, true] := by decide
/-- The X2 row: one cell is drawn, the entry is replaced. -/
theorem test_upd_x2 :
    (after (updateField 9 0 7 plusOne (cached 7 plusZero))).map (fun t => (t.out.diff, t.cells[0].chr.read 1)) =
      some ({ cells := [(5, .draw 0x31)], opAny := true }, 0x31) := by decide
/-- The X2 row on the ports, nine cells: DRAW in cell 5 is bits 11..10 of `op_kind`, '1' is bits 47..40 of `op_chr`. -/
theorem test_cellPorts :
    opKindPort 9 (diffOut 9 (FieldEntry.ofString 7 plusZero) 7 plusOne).cells = 0x400 ∧
      opChrPort 9 (diffOut 9 (FieldEntry.ofString 7 plusZero) 7 plusOne).cells = 0x310000000000 := by decide
/-- `"+0.0000"` on a port of nine characters, the leftmost in the low bits (R61). -/
theorem test_updChrPort : updChrPort 9 plusZero = 0x0000303030302E302B := by decide
/-- P5, line 7 (`"-12.3456"` replaced by `"+9.9999"`): the shorter string, paired from the right. -/
theorem test_upd_shorter :
    (diffOut 9 (FieldEntry.ofString 8 [0x2D, 0x31, 0x32, 0x2E, 0x33, 0x34, 0x35, 0x36]) 7
        [0x2B, 0x39, 0x2E, 0x39, 0x39, 0x39, 0x39]).cells =
      [(0, .draw 0x39), (1, .draw 0x39), (2, .draw 0x39), (3, .draw 0x39), (5, .draw 0x39), (6, .draw 0x2B),
       (7, .blank)] := by decide
theorem test_updRefused :
    (after (exec (.updRefused 8 2) (cached 7 plusZero))).map (fun t => (t.cells, t.out.diff)) =
      some ((cached 7 plusZero).cells, DiffOut.quiet) := by decide
/-- The codes of R55. -/
theorem test_opKind : [CellOp.none, .draw 0x31, .blank].map (fun o => (o.kind, o.chr)) = [(0, 0), (1, 0x31), (2, 0)] := by
  decide
/-- The blocks apart (R141), on V1: `feed` of the last chunk gives the report, of any other chunk none. -/
theorem test_feedBlock :
    feedBlock (collected 35).asm.assembler c5 =
      ({ buf := v1 ++ [(37, 0xAA), (38, 0xBB), (39, 0xCC), (40, 0xDD), (41, 0xEE)], cursor := 42, collecting := false },
        some v1) ∧
    (feedBlock (collected 28).asm.assembler c1).2 = none := by decide
theorem test_decodeBlock :
    [decodeBlock v1 false 0, decodeBlock v1 true 1, decodeBlock v1 true 3] = [(true, 1000050), (false, 655382767), (false, 0)] := by
  decide
/-- The widths of R4. -/
theorem test_widths :
    [Config.magW, Config.axisW, Config.cursorW, Config.nowW, Config.encW, Config.charW] = [30, 2, 6, 32, 32, 8] := by decide
/-- Reset's byte spaces are canonical. -/
theorem test_reset_wf :
    State.reset.asm.buf.wf = true ∧ State.reset.asm.rpt.wf = true ∧ State.reset.cells.toList.all (·.chr.wf) = true := by
  decide
/-- A cycle on a fetched word shows that word's operation: `sel` = 010 on V1 (section 2.1). -/
theorem test_step_dec :
    (after (step ((holding v1).withFetchWord 8 2))).map (fun t => (t.out.decMag, t.out.fKey, t.out.rptFull)) =
      some (123456, 0x5A, true) := by decide
/-- P1, line 3: the marker's chunk starts a frame. -/
theorem test_step_feed :
    (after (step (State.reset.withFetchWord 56 0x803200645AFDFE))).map (fun t => (t.asm.collecting, t.asm.cursor)) =
      some (true, 7) := by decide

/-! ### Witnesses: the hypotheses of each statement, all of them met together, at the ends of each range -/

/-- One more than the longest string never fits, and a string of one character always does (R4). -/
theorem one_fits : 1 ≤ Config.fieldMaxLen := Nat.le_add_left 1 _

/-- The reassembler of `collected n` meets the invariants at every cursor at which a frame is in progress. -/
theorem collected_inv : ∀ n ∈ [7, 14, 21, 28, 35], RInv (collected n).asm := by
  intro n hn
  simp only [List.mem_cons, List.not_mem_nil, or_false] at hn
  rcases hn with rfl | rfl | rfl | rfl | rfl <;>
    exact ⟨by decide, by decide, by decide, by decide, by decide, by decide, by decide, by decide, by decide, by decide⟩

theorem holding_inv : RInv (holding v1).asm :=
  ⟨by decide, by decide, by decide, by decide, by decide, by decide, by decide, by decide, by decide, by decide⟩

/-- FeedAppendStoresAtTheCursor, FeedCompleteHandsTheReportOver: the first and the last cursor with room. -/
theorem witness_storing :
    State.reset.asm.buf.wf = true ∧ State.reset.asm.cursor.toNat + 7 ≤ 42 ∧
      (collected 35).asm.buf.wf = true ∧ (collected 35).asm.cursor.toNat + 7 ≤ 42 := by decide

/-- StoringPastTheBufferStops: the first cursor without room and the largest cursor. -/
theorem witness_noRoom : 42 < (collected 36).asm.cursor.toNat + 7 ∧ 42 < (collected 63).asm.cursor.toNat + 7 := by
  decide

/-- AxisDecodeShowsTheSlot: the first and the last slot. -/
theorem witness_axis :
    (Instr.decWcx, 0) ∈ [(Instr.decWcx, 0), (.decWcy, 1), (.decWcz, 2), (.decMcx, 3), (.decMcy, 4), (.decMcz, 5)] ∧
    (Instr.decMcz, 5) ∈ [(Instr.decWcx, 0), (.decWcy, 1), (.decWcz, 2), (.decMcx, 3), (.decMcy, 4), (.decMcz, 5)] := by
  decide

/-- WideFieldReadsShowTheReport: a held report. -/
theorem witness_magicField : RInv (holding v1).asm ∧ (holding v1).asm.rptFull = true := ⟨holding_inv, rfl⟩

/-- FixedPointRoundTripIsExact: slot 0 (100, 50, minus), slot 4 (the largest) and slot 5 (negative zero) of V1. -/
theorem witness_fixedPoint :
    (num16 v1 3 = 100 ∧ num16 v1 5 = 50 + 32768 * true.toNat) ∧
    (num16 v1 19 = 65535 ∧ num16 v1 21 = 32767 + 32768 * false.toNat) ∧
    (num16 v1 23 = 0 ∧ num16 v1 25 = 0 + 32768 * true.toNat) := by decide

/-- CacheUpdatePoliciesCoincide, EvalIsIdempotentUpToTheRefresh: an EVAL goes on; 500 ms later no lane is changed
and no redraw is asked for, 501 ms later one is. -/
theorem witness_eval :
    (∃ t, exec (.eval 1500) seen = .next t) ∧
    (after (exec (.eval 1500) seen)).map (fun t => (t.out.det.changed[0], t.out.det.redraw)) = some (false, false) ∧
    (after (exec (.eval 1501) seen)).map (·.out.det.redraw) = some true :=
  ⟨⟨_, rfl⟩, by decide, by decide⟩

/-- FirstEvalAlwaysRedraws. -/
theorem witness_firstEval : ∀ k : Fin 6, State.reset.gate.pdcValid[k] = false := by decide

/-- UpdDrawsTheDifferenceAndReplacesTheString: the empty string, one character, and the longest string. -/
theorem witness_upd :
    0 ≤ Config.fieldMaxLen ∧ 1 ≤ Config.fieldMaxLen ∧ Config.fieldMaxLen ≤ Config.fieldMaxLen :=
  ⟨Nat.zero_le _, one_fits, Nat.le_refl _⟩

/-- UpdWithoutStorageStops: the first field without an entry, and the first length that does not fit. -/
theorem witness_updStops : 8 ≤ (8 : BitVec 4).toNat ∧ Config.fieldMaxLen < Config.fieldMaxLen + 1 :=
  ⟨by decide, Nat.lt_succ_self _⟩

/-- UpdIsIdempotent, UpdOperationCountIsDifferencesPlusLengthChange: an UPD of field 0 that goes on, from an entry within the bound. -/
theorem witness_updNext :
    State.reset.cells[(0 : Fin 8)].len ≤ Config.fieldMaxLen ∧
      ∃ t, exec (.upd (BitVec.ofNat 4 (0 : Fin 8)) 1 [0x30]) State.reset = .next t :=
  ⟨Nat.zero_le _, _, show updateField Config.fieldMaxLen (BitVec.ofNat 4 (0 : Fin 8)) 1 [0x30] State.reset = _ from
    dif_pos ⟨by decide, one_fits⟩⟩

/-- UpdOperationsAreTheFewestThatRedraw: `witness_updNext`, with a list of operations that turns the one string into
the other. -/
theorem witness_fewest :
    TurnsInto [(0, .draw 0x30)] (displayed State.reset.cells[(0 : Fin 8)].len State.reset.cells[(0 : Fin 8)].chr.read)
      (displayed 1 (chrAt [0x30])) := by
  intro p
  cases p with
  | zero => rfl
  | succ p => rfl

/-- CellPortsCarryTheCellsInOrder, StringPortCarriesTheCharactersInOrder: the first and the last cell, a cycle
without an accepted UPD and one with. -/
theorem witness_cellPorts :
    0 < Config.fieldMaxLen ∧ Config.fieldMaxLen - 1 < Config.fieldMaxLen ∧
    (∃ t, step State.reset = .next t) ∧ ¬ updAccepted State.reset.pins ∧
    updAccepted { Pins.idle with updValid := true, updLen := 1, updChr := [0x30] } :=
  ⟨one_fits, Nat.sub_lt one_fits (by decide), ⟨_, rfl⟩, fun h => absurd h.1 (by decide), rfl, by decide, one_fits⟩

/-- StepIsTheBlocksComposed: each strobe and both ends of the axis range, and the cycle that completes a report with
the cycle after it. -/
theorem witness_blocks :
    ((feeding c5).rst = false ∧ (feeding c5).chunkValid = true) ∧
    ({ seen with asm := { seen.asm with reportValid := true } }).asm.reportValid = true ∧
    Pins.idle.decAxis.toNat = (0 : Fin 4).val ∧ ({ Pins.idle with decAxis := 3 } : Pins).decAxis.toNat = (3 : Fin 4).val ∧
    ({ Pins.idle with updValid := true }).updValid = true ∧
    (feedBlock (collected 35).asm.assembler (feeding c5).chunkData).2 = some v1 ∧
    ∃ t u, step { collected 35 with pins := feeding c5 } = .next t ∧ t.pins.rst = false ∧ step t = .next u :=
  ⟨⟨rfl, rfl⟩, rfl, by decide, by decide, rfl, by decide, ⟨_, _, rfl, rfl, rfl⟩⟩

/-- PortLanesCarryTheBytesInOrder: the first and the last lane of each port. -/
theorem witness_lanes : 0 < 7 ∧ 6 < 7 ∧ 0 < 37 ∧ 36 < 37 := by decide

/-- FeedCasesAreTestedInOrder: ports with a chunk, and for each case a chunk and a control state. -/
theorem witness_feedCases :
    ((feeding c0).rst = false ∧ (feeding c0).chunkValid = true ∧ isMagic (feeding c0).chunkData = true) ∧
    ((feeding c1).rst = false ∧ (feeding c1).chunkValid = true ∧ isMagic (feeding c1).chunkData = false) ∧
    State.reset.ctl.collecting = false ∧
    ((collected 36).ctl.collecting = true ∧ 42 < (collected 36).ctl.cursor.toNat + 7) ∧
    ((collected 29).ctl.collecting = true ∧ (collected 29).ctl.cursor.toNat + 7 < 37) ∧
    ((collected 30).ctl.collecting = true ∧ 37 ≤ (collected 30).ctl.cursor.toNat + 7) ∧
    ((collected 35).ctl.collecting = true ∧ (collected 35).ctl.cursor.toNat + 7 ≤ 42) := by decide

/-- OverflowIsNeverSelected: states within the invariants that append and that complete. -/
theorem witness_overflow :
    (RInv (collected 7).asm ∧ decode .reassembler (collected 7).ctl (feeding c1) = .ok (.feedAppend c1)) ∧
    (RInv (collected 28).asm ∧ decode .reassembler (collected 28).ctl (feeding c1) = .ok (.feedAppend c1)) ∧
    (RInv (collected 35).asm ∧ decode .reassembler (collected 35).ctl (feeding c1) = .ok (.feedComplete c1)) :=
  ⟨⟨collected_inv 7 (by decide), by decide⟩, ⟨collected_inv 28 (by decide), by decide⟩,
    ⟨collected_inv 35 (by decide), by decide⟩⟩

/-- DecodeOfEncodeIsTheOperation: an operation of each family, in a control state that selects it. -/
theorem witness_encode :
    ((Instr.feedComplete c5).WellFormed ∧ (collected 35).ctl.selects (.feedComplete c5) = true) ∧
    (Instr.decMcz.WellFormed ∧ Ctl.reset.selects .decMcz = true) ∧
    ((Instr.eval 0xFFFFFFFF).WellFormed ∧ Ctl.reset.selects (.eval 0xFFFFFFFF) = true) ∧
    ((Instr.upd 7 0 []).WellFormed ∧ Ctl.reset.selects (.upd 7 0 []) = true) ∧
    ((Instr.updRefused 8 0).WellFormed ∧ Ctl.reset.selects (.updRefused 8 0) = true) := by
  refine ⟨⟨by decide, by decide⟩, ⟨rfl, rfl⟩, ⟨rfl, rfl⟩, ⟨?_, rfl⟩, ⟨?_, rfl⟩⟩
  · simp [Instr.WellFormed, Instr.wellFormedAt]
  · simp [Instr.WellFormed, Instr.wellFormedAt]

/-- DecodedOperationsAreSelected: ports within their widths that decode. -/
theorem witness_decoded :
    (feeding c0).WellFormed ∧ decode .reassembler Ctl.reset (feeding c0) = .ok (.feedMagic c0) :=
  ⟨by simp [Pins.WellFormed, Pins.wellFormedAt, feeding, Pins.idle], by decide⟩

/-- StepRunsTheDecodedOperations, EachOperationReadsTheStateBeforeTheEdge: a block that decodes, and for the
clauses on RESET and on the run a cycle with `rst` and a run that goes on. -/
theorem witness_stepRuns :
    (Block.reassembler ≠ .system ∧ decode .reassembler State.reset.ctl { feeding c0 with rst := false } =
      .ok (.feedMagic c0)) ∧
    (Block.detector ≠ .system ∧ decode .detector Ctl.reset { Pins.idle with evalStrobe := true } = .ok (.eval 0)) ∧
    ({ State.reset with pins := { Pins.idle with rst := true } }).pins.rst = true ∧
    ∃ t, runOps (cycleOps State.reset.ctl State.reset.pins) State.reset.beginCycle = .next t :=
  ⟨⟨by decide, by decide⟩, ⟨by decide, by decide⟩, rfl, ⟨_, rfl⟩⟩

/-- StepKeepsTheInvariants: a state in mid-frame within them, and its step. -/
theorem witness_inv : Inv (collected 35) ∧ ∃ t, step (collected 35) = .next t := by
  refine ⟨⟨collected_inv 35 (by decide), ⟨by decide⟩, ⟨?_, by decide, ?_⟩⟩, ⟨_, rfl⟩⟩
  · intro f; simp [collected, State.reset, CState.reset, FieldEntry.empty]
  · intro f; simp [collected, State.reset, CState.reset, FieldEntry.empty]

/-- BlocksWithoutStrobeHold: no strobe at all. -/
theorem witness_noStrobe :
    seen.pins.rst = false ∧ seen.pins.chunkValid = false ∧ seen.asm.reportValid = false ∧
      seen.pins.evalStrobe = false ∧ seen.pins.updValid = false := by decide

/-- ResetOverridesTheCycle, OnlyResetUnsetsTheDirtyCache: a RESET cycle with a chunk presented, which unsets the
entries that an EVAL set. -/
theorem witness_reset :
    ({ seen with pins := { feeding c0 with rst := true } }).pins.rst = true ∧ seen.gate.pdcValid[(0 : Fin 6)] = true ∧
    ∃ t, step { seen with pins := { feeding c0 with rst := true } } = .next t ∧ t.gate.pdcValid[(0 : Fin 6)] = false :=
  ⟨rfl, by decide, ⟨_, rfl, by decide⟩⟩

/-- ReportFlagsFollowCompletion: a cycle that goes on, with and without `rst`, and one with `report_valid`. -/
theorem witness_flags :
    (∃ t, step (collected 35) = .next t) ∧ (collected 35).pins.rst = false ∧
    ({ seen with pins := { Pins.idle with rst := true } }).pins.rst = true ∧
    ({ seen with asm := { seen.asm with reportValid := true } }).pins.rst = false ∧
    ({ seen with asm := { seen.asm with reportValid := true } }).asm.reportValid = true :=
  ⟨⟨_, rfl⟩, rfl, rfl, rfl, rfl⟩

/-- ReassemblerFollowsItsTransitionTable: a magic chunk, a data chunk and no chunk, from IDLE, C(1), C(4), C(5). -/
theorem witness_table :
    ((feeding c0).rst = false ∧ (feeding c0).chunkValid = true ∧ isMagic (feeding c0).chunkData = true) ∧
    ((feeding c1).rst = false ∧ (feeding c1).chunkValid = true ∧ isMagic (feeding c1).chunkData = false) ∧
    (Pins.idle.rst = false ∧ Pins.idle.chunkValid = false) ∧
    State.reset.asm.collecting = false ∧
    ((collected 7).asm.collecting = true ∧ (collected 7).asm.cursor.toNat = 7 * 1) ∧
    ((collected 28).asm.collecting = true ∧ (collected 28).asm.cursor.toNat = 7 * 4) ∧
    ((collected 35).asm.collecting = true ∧ (collected 35).asm.cursor.toNat = 35) := by decide

/-- ReportIsVisibleOneCycleLater: a completing cycle and the cycle after it. -/
theorem witness_visible :
    ∃ t u, step { collected 35 with pins := feeding c5 } = .next t ∧ step t = .next u ∧ t.pins.rst = false ∧
      decode .reassembler (collected 35).ctl (feeding c5) = .ok (.feedComplete c5) :=
  ⟨_, _, rfl, rfl, rfl, by decide⟩

/-- SixChunksGiveTheirReport: six chunks, with a cycle without a chunk among them, and a prefix of them. -/
theorem witness_sixChunks :
    NoReset ([feeding c0, feeding c1, Pins.idle, feeding c1, feeding c1, feeding c1] ++ [feeding c5]) ∧
    chunksOf [feeding c0, feeding c1, Pins.idle, feeding c1, feeding c1, feeding c1] = [c0, c1, c1, c1, c1] ∧
    (feeding c5).chunkValid = true ∧ (feeding c5).chunkData = c5 ∧ isMagic c0 = true ∧
    (∀ c ∈ [c1, c1, c1, c1, c5], isMagic c = false) ∧
    ∃ u, runInputs [feeding c0] State.reset = .next u := by
  have hc : isMagic c1 = false ∧ isMagic c5 = false := by decide
  refine ⟨?_, by decide, rfl, rfl, by decide, by simp [hc], ⟨_, rfl⟩⟩
  intro p hp
  simp only [List.cons_append, List.nil_append, List.mem_cons, List.not_mem_nil, or_false] at hp
  rcases hp with rfl | rfl | rfl | rfl | rfl | rfl | rfl <;> rfl

/-- ReportsAreSixCyclesApart: one cycle and five cycles from a state that is not collecting. -/
theorem witness_apart :
    (holding v1).asm.collecting = false ∧ NoReset (List.replicate 5 (feeding c0)) ∧
    (List.replicate 5 (feeding c0)) ≠ [] ∧ (List.replicate 5 (feeding c0)).length ≤ 5 ∧
    NoReset [Pins.idle] ∧ [Pins.idle] ≠ [] ∧ [Pins.idle].length ≤ 5 := by
  refine ⟨rfl, ?_, by decide, by decide, ?_, by decide, by decide⟩
  · intro p hp; rw [List.eq_of_mem_replicate hp]; rfl
  · intro p hp; rw [List.mem_singleton.1 hp]; rfl

/-- HiddenStateIsUnobservable: two different states that differ only in `cursor` and `buf` while not collecting. -/
theorem witness_hidden :
    State.reset.asm.buf.wf = true ∧
    ({ State.reset with asm := { RState.reset with buf := v1, cursor := 42 } }).asm.buf.wf = true ∧
    HiddenOnly State.reset { State.reset with asm := { RState.reset with buf := v1, cursor := 42 } } :=
  ⟨by decide, by decide, ⟨rfl, fun h => absurd h (by decide), fun h => absurd h (by decide), fun _ => rfl, rfl, rfl,
    rfl, fun _ _ => rfl, rfl, fun _ => rfl, fun _ _ _ => rfl, ⟨rfl, rfl⟩⟩⟩

end Sys2Proof.Tests
end

namespace Sys2Proof.Machine

/-! ### What the operations of a cycle leave

The operation that R56 selects for a block always goes on, and leaves what the block's function in R132 gives. -/

/-- The FEED case the decoder selects beside what `feed` makes of the reassembler: R56 and R65 agree. -/
theorem State.feedCase_feed_cases (s : State) (c : Chunk) :
    (feedCase s.ctl c = .feedMagic c ∧ s.asm.feed c = s.asm.startFrame c) ∨
    (feedCase s.ctl c = .feedIdle c ∧ s.asm.feed c = s.asm.hold) ∨
    (feedCase s.ctl c = .feedOverflow c ∧ s.asm.feed c = s.asm.dropFrame) ∨
    (feedCase s.ctl c = .feedAppend c ∧ s.asm.cursor.toNat + 7 ≤ 42 ∧ s.asm.feed c = s.asm.append c) ∨
    (feedCase s.ctl c = .feedComplete c ∧ s.asm.cursor.toNat + 7 ≤ 42 ∧ s.asm.feed c = s.asm.complete c) := by
  rcases s.asm.feed_cases c with ⟨hm, e⟩ | ⟨hm, hc, e⟩ | ⟨hm, hc, ho, e⟩ | ⟨hm, hc, hl, e⟩ | ⟨hm, hc, ho, hl, e⟩
  · exact .inl ⟨feedCase_of_magic _ _ hm, e⟩
  · exact .inr (.inl ⟨feedCase_of_idle _ _ hm hc, e⟩)
  · exact .inr (.inr (.inl ⟨feedCase_of_overflow _ _ hm hc ho, e⟩))
  · exact .inr (.inr (.inr (.inl ⟨feedCase_of_append _ _ hm hc hl, by omega, e⟩)))
  · exact .inr (.inr (.inr (.inr ⟨feedCase_of_complete _ _ hm hc ho hl, ho, e⟩)))

/-- The selected FEED case goes on and does what `feed` says (R65). -/
theorem exec_feedCase (s : State) (c : Chunk) :
    exec (feedCase s.ctl c) s = .next { s with asm := s.asm.feed c } := by
  rcases s.feedCase_feed_cases c with ⟨hi, e⟩ | ⟨hi, e⟩ | ⟨hi, e⟩ | ⟨hi, hr, e⟩ | ⟨hi, hr, e⟩ <;> rw [hi, e]
  case inl | inr.inl | inr.inr.inl => rfl
  case inr.inr.inr.inl | inr.inr.inr.inr => exact s.storing_next _ hr

/-- The selected UPD or UPD.REFUSED goes on and does what `upd` says (R119, R120). -/
theorem exec_updCase (s : State) (p : Pins) :
    exec (updCase Config.fieldMaxLen p) s = .next { s with
      cells := (updBlock Config.fieldMaxLen s.cells p.updField p.updLen p.updChr).1
      out := { s.out with diff := (updBlock Config.fieldMaxLen s.cells p.updField p.updLen p.updChr).2 } } := by
  by_cases h : p.updField.toNat < Config.nDiffFields ∧ p.updLen ≤ Config.fieldMaxLen
  · rw [updCase_of_fits _ _ h.1 h.2]
    simp [exec, execUpd, updateField, updBlock, h]
  · rw [updCase_of_not_fits _ _ h]
    simp [exec, execUpdRefused, updBlock, h]

/-- The selected DEC shows what `decodeAxis` says (R80, R81, R89). -/
theorem exec_decSelect (s : State) (cs : Bool) (axis : AxisIndex) :
    exec (decSelect cs axis) s =
      .next (s.showAxis (decodeAxis s.asm.rpt cs axis).1 (decodeAxis s.asm.rpt cs axis).2) := by
  have haxis : ∀ a : AxisIndex, a = 0 ∨ a = 1 ∨ a = 2 ∨ a = 3 := by decide
  rcases haxis axis with rfl | rfl | rfl | rfl <;> cases cs <;> rfl

/-- The operations of every cycle, the ten ports and the decoder: what they show. -/
theorem runOps_always (s : State) (cs : Bool) (axis : AxisIndex) (is : List Instr) :
    runOps ([.getMagic, .getKey, .getFeedOvr, .getSpindleOvr, .getFeed, .getSpindle, .getStep, .getState, .barFeed,
        .barSpindle, decSelect cs axis] ++ is) s =
      runOps is { s with out := { s.out with
        fMagic := u16le s.asm.rpt 0, fKey := u8 s.asm.rpt 2, fFeedOvr := u16le s.asm.rpt 27
        fSpindleOvr := u16le s.asm.rpt 29, fFeed := u16le s.asm.rpt 31, fSpindle := u16le s.asm.rpt 33
        fStep := u8 s.asm.rpt 35, fState := u8 s.asm.rpt 36
        decSign := (decodeAxis s.asm.rpt cs axis).1, decMag := (decodeAxis s.asm.rpt cs axis).2
        barFeedPct := barPct (u16le s.asm.rpt 27), barSpindlePct := barPct (u16le s.asm.rpt 29) } } :=
  (runOps_ports s (decSelect cs axis :: is)).trans (runOps_cons _ is _ _ (exec_decSelect _ cs axis))

/-- A strobed block runs its operation where its strobe is 1 and is passed over where it is 0: here EVAL's. -/
theorem runOps_eval_if (b : Bool) (now : Millis) (is : List Instr) (s : State) :
    runOps ((if b then [.eval now] else []) ++ is) s = runOps is { s with
      gate := if b then s.gate.afterEval (encodings s.asm.rpt) now else s.gate
      out := { s.out with det := if b then evalOut s.gate (encodings s.asm.rpt) now else s.out.det } } := by
  cases b <;> rfl

theorem runOps_upd_if (p : Pins) (is : List Instr) (s : State) :
    runOps ((if p.updValid then [updCase Config.fieldMaxLen p] else []) ++ is) s = runOps is { s with
      cells := if p.updValid then (updBlock Config.fieldMaxLen s.cells p.updField p.updLen p.updChr).1 else s.cells
      out := { s.out with
        diff := if p.updValid then (updBlock Config.fieldMaxLen s.cells p.updField p.updLen p.updChr).2
          else s.out.diff } } := by
  cases h : p.updValid
  · rfl
  · exact runOps_cons _ is s _ (exec_updCase s p)

/-- The FEED case is selected by the control state before the edge, `report_valid` apart, which no case looks at;
what `feed` leaves does not depend on it either. -/
theorem runOps_feed_if (b : Bool) (c : Chunk) (is : List Instr) (s u : State) (hu : u.asm = s.asm.hold) :
    runOps ((if b then [feedCase s.ctl c] else []) ++ is) u =
      runOps is { u with asm := if b then s.asm.feed c else s.asm.hold } := by
  have hsel : feedCase s.ctl c = feedCase u.ctl c := by rw [State.ctl, State.ctl, hu]; rfl
  have hfeed : s.asm.feed c = u.asm.feed c := by rw [hu]; rfl
  cases b
  · rw [← hu]; rfl
  · rw [hsel, hfeed]; exact runOps_cons _ is u _ (exec_feedCase u c)

theorem runOps_reset_if (b : Bool) (s : State) :
    runOps (if b then [.reset] else []) s = .next { s with
      asm := if b then RState.reset else s.asm
      gate := if b then DState.reset else s.gate
      cells := if b then CState.reset else s.cells } := by
  cases b <;> rfl

/-! ### The step -/

/-- The state after the edge, with the next inputs not yet on the ports: `out` recorded and the three parts of
`next` taken, each from the state before the edge (R132, R133). -/
def State.afterEdge (s : State) : State :=
  { s with
    asm := s.asm.next s.pins
    gate := s.gate.next s.asm s.pins
    cells := s.cells.next s.pins
    out := outputsOf s s.pins }

/-- A cycle's operations, run one after another, are `out` and `next` of R132 (R133). -/
theorem runOps_cycleOps (s : State) : runOps (cycleOps s.ctl s.pins) s.beginCycle = .next s.afterEdge := by
  rw [cycleOps_eq, List.append_assoc, List.append_assoc, List.append_assoc, runOps_always, runOps_eval_if,
    runOps_upd_if, runOps_feed_if _ _ _ s _ rfl, runOps_reset_if]
  rfl

/-- What a step does, once: it answers `out` and `next` of R132, with the next inputs on the ports. -/
theorem step_eq_afterEdge (s : State) : step s = .next s.afterEdge.endCycle := step_of_runOps s _ (runOps_cycleOps s)

/-- What a step that answers `t` has left in each part and shown on the ports. -/
theorem step_parts {s t : State} (h : step s = .next t) :
    t.asm = s.asm.next s.pins ∧ t.gate = s.gate.next s.asm s.pins ∧ t.cells = s.cells.next s.pins ∧
      t.out = outputsOf s s.pins := by
  rw [step_eq_afterEdge] at h
  cases h
  exact ⟨State.endCycle_asm _, State.endCycle_gate _, State.endCycle_cells _, State.endCycle_out _⟩

/-! ### The report flags (R16, R17) -/

theorem RState.next_of_rst (r : RState) (p : Pins) (h : p.rst = true) : r.next p = RState.reset := if_pos h

theorem RState.next_of_chunk (r : RState) (p : Pins) (hr : p.rst = false) (hc : p.chunkValid = true) :
    r.next p = r.feed p.chunkData := by
  simp [RState.next, hr, hc]

theorem RState.next_of_no_chunk (r : RState) (p : Pins) (hr : p.rst = false) (hc : p.chunkValid = false) :
    r.next p = r.hold := by
  simp [RState.next, hr, hc]

/-- Only FEED.COMPLETE raises the flags: `report_valid` is 0 after every other case, `rpt_full` is kept by it. -/
theorem State.feed_flags (s : State) (c : Chunk) :
    (feedCase s.ctl c = .feedComplete c ∧ (s.asm.feed c).reportValid = true ∧ (s.asm.feed c).rptFull = true) ∨
    (feedCase s.ctl c ≠ .feedComplete c ∧ (s.asm.feed c).reportValid = false ∧
      (s.asm.feed c).rptFull = s.asm.rptFull) := by
  rcases s.feedCase_feed_cases c with ⟨hi, e⟩ | ⟨hi, e⟩ | ⟨hi, e⟩ | ⟨hi, -, e⟩ | ⟨hi, -, e⟩ <;> simp [hi, e]

/-- The reassembler's part of a cycle without `rst` raises the flags in the same case only, whether or not there is a
chunk (R79). -/
theorem State.next_flags (s : State) (p : Pins) (hr : p.rst = false) :
    (decode .reassembler s.ctl p = .ok (.feedComplete p.chunkData) ∧
      (s.asm.next p).reportValid = true ∧ (s.asm.next p).rptFull = true) ∨
    (decode .reassembler s.ctl p ≠ .ok (.feedComplete p.chunkData) ∧
      (s.asm.next p).reportValid = false ∧ (s.asm.next p).rptFull = s.asm.rptFull) := by
  rw [ne_eq, decode_reassembler_iff]
  cases hc : p.chunkValid with
  | false => exact .inr ⟨by simp, by simp [s.asm.next_of_no_chunk p hr hc]⟩
  | true => simpa [s.asm.next_of_chunk p hr hc, hr, eq_comm (a := Instr.feedComplete _)] using s.feed_flags p.chunkData

theorem State.next_reportValid_iff (s : State) (p : Pins) :
    (s.asm.next p).reportValid = true ↔ decode .reassembler s.ctl p = .ok (.feedComplete p.chunkData) := by
  cases hr : p.rst with
  | true => simp [s.asm.next_of_rst p hr, decode_reassembler_iff, hr, RState.reset]
  | false => rcases s.next_flags p hr with ⟨hd, hv, -⟩ | ⟨hd, hv, -⟩ <;> simp [hd, hv]

theorem State.next_rptFull_iff (s : State) (p : Pins) (hr : p.rst = false) :
    (s.asm.next p).rptFull = true ↔
      s.asm.rptFull = true ∨ decode .reassembler s.ctl p = .ok (.feedComplete p.chunkData) := by
  rcases s.next_flags p hr with ⟨hd, -, hf⟩ | ⟨hd, -, hf⟩ <;> simp [hd, hf]

/-- Settles O43: the flags are those of the reassembler's part of `next`, the ports those of `out`. -/
theorem reportFlagsFollowCompletion : Obligations.ReportFlagsFollowCompletion := by
  intro s t h
  obtain ⟨hasm, -, -, hout⟩ := step_parts h
  rw [hasm, hout]
  refine ⟨s.next_reportValid_iff s.pins, s.next_rptFull_iff s.pins, ?_, rfl, rfl, ?_⟩
  · intro hr
    rw [s.asm.next_of_rst _ hr]
    rfl
  · intro hr hv
    exact (decode_detector_iff _ _ _).2 ⟨hr, .inl hv, rfl⟩

end Sys2Proof.Machine

namespace Sys2Proof.Machine

/-! ### Byte lanes (R34)

`packLanes_field` says what lies in each field of a packed port; here the converse, that a port is the pack of its
fields. -/

/-- A byte lane as a number. -/
theorem lane_toNat {w : Nat} (v : BitVec w) (i : Nat) : (lane v i).toNat = v.toNat / 2 ^ (8 * i) % 256 := by
  rw [lane, BitVec.extractLsb'_toNat, Nat.shiftRight_eq_div_pow]

/-- A port is known by its fields: bit `j` is bit `j % k` of field `j / k`. -/
theorem eq_of_fields_eq {k n w : Nat} {u v : BitVec w} (hw : w ≤ k * n)
    (h : ∀ i < n, u.extractLsb' (k * i) k = v.extractLsb' (k * i) k) : u = v := by
  apply BitVec.eq_of_getLsbD_eq
  intro j hj
  have hjn : j < k * n := Nat.lt_of_lt_of_le hj hw
  have hk : j % k < k := Nat.mod_lt _ (Nat.pos_of_mul_pos_right (Nat.zero_lt_of_lt hjn))
  have hfield := congrArg (BitVec.getLsbD · (j % k)) (h (j / k) (Nat.div_lt_of_lt_mul hjn))
  simpa [hk, Nat.div_add_mod] using hfield

/-- Packing all fields of a port gives the port back. -/
theorem packLanes_fields {k n w : Nat} (v : BitVec w) (hw : w = k * n) :
    packLanes w ((List.range n).map fun i => v.extractLsb' (k * i) k) = v :=
  eq_of_fields_eq (Nat.le_of_eq hw) fun i hi => packLanes_range w n _ i (Nat.le_of_eq hw.symm) hi

theorem chunkOfBytes_chunkBytes (c : Chunk) : chunkOfBytes (chunkBytes c) = .ok c := by
  rw [chunkOfBytes, if_pos (chunkBytes_length c)]
  exact congrArg Except.ok (packLanes_fields (k := 8) (n := 7) c rfl)

theorem lane_reportPort (m : Memory) (o : Nat) (h : o < 37) : lane (reportPort m) o = m.read o :=
  packLanes_range 296 37 m.read o (by decide) h

/-- Settles O28: the chunk port as the pack of its seven bytes, the report port by its packed lanes. -/
theorem portLanesCarryTheBytesInOrder : Obligations.PortLanesCarryTheBytesInOrder :=
  ⟨fun c i _ => lane_toNat c i, chunkOfBytes_chunkBytes, lane_reportPort⟩

end Sys2Proof.Machine

namespace Sys2Proof.Machine

/-! ### Packed raw encodings (R50)

The encoding is a port of four byte lanes, lane `i` holding byte `i` of the slot; a port is known by its lanes, so
equality of encodings is equality of the bytes. -/

theorem slotEnc_toNat_num16 (m : Memory) (k : Nat) :
    (slotEnc m k).toNat = num16 m (3 + 4 * k) + 65536 * num16 m (5 + 4 * k) := by
  rw [slotEnc_toNat, intPart, fracField, u16le_toNat, u16le_toNat]
  rfl

theorem slotEnc_toNat_encNum (m : Memory) (k : Nat) : (slotEnc m k).toNat = encNum m k := by
  rw [slotEnc_toNat_num16, num16, num16, encNum, show 3 + 4 * k + 1 = 4 + 4 * k by omega,
    show 5 + 4 * k + 1 = 6 + 4 * k by omega]
  omega

/-- Lane `i` of an encoding is byte `i` of its slot: the places of R50's sum are the lanes' places. -/
theorem lane_slotEnc (m : Memory) (k i : Nat) (hi : i < 4) : lane (slotEnc m k) i = m.read (3 + 4 * k + i) := by
  have h0 := (m.read (3 + 4 * k + 0)).isLt
  have h1 := (m.read (3 + 4 * k + 1)).isLt
  have h2 := (m.read (3 + 4 * k + 2)).isLt
  have h3 := (m.read (3 + 4 * k + 3)).isLt
  have hsum : (slotEnc m k).toNat = (m.read (3 + 4 * k + 0)).toNat + 256 * (m.read (3 + 4 * k + 1)).toNat +
      65536 * ((m.read (3 + 4 * k + 2)).toNat + 256 * (m.read (3 + 4 * k + 3)).toNat) := by
    rw [slotEnc_toNat_num16, show 5 + 4 * k = 3 + 4 * k + 2 by omega]
    rfl
  apply BitVec.eq_of_toNat_eq
  rw [lane_toNat, hsum]
  match i, hi with
  | 0, _ | 1, _ | 2, _ | 3, _ => omega

theorem slotEnc_eq_iff (m n : Memory) (j k : Nat) :
    slotEnc m j = slotEnc n k ↔ ∀ i < 4, m.read (3 + 4 * j + i) = n.read (3 + 4 * k + i) := by
  constructor
  · intro heq i hi
    rw [← lane_slotEnc m j i hi, heq, lane_slotEnc n k i hi]
  · intro hbytes
    apply eq_of_fields_eq (k := 8) (n := 4) (Nat.le_refl 32)
    intro i hi
    calc lane (slotEnc m j) i = m.read (3 + 4 * j + i) := lane_slotEnc m j i hi
      _ = n.read (3 + 4 * k + i) := hbytes i hi
      _ = lane (slotEnc n k) i := (lane_slotEnc n k i hi).symm

/-- Settles O15: both sums by the values of the slot's halves, equality by the encodings' byte lanes. -/
theorem encodingsAreEqualExactlyWhenTheBytesAre : Obligations.EncodingsAreEqualExactlyWhenTheBytesAre :=
  fun m n j k => ⟨slotEnc_toNat_num16 m j, slotEnc_toNat_encNum m j, slotEnc_eq_iff m n j k⟩

end Sys2Proof.Machine

namespace Sys2Proof

/-! ### Which FEED case is selected (R56, R65) -/

/-- The five FEED cases of a chunk, in the order in which R65 tests them. -/
def feedCasesOf (c : Chunk) : List Instr :=
  [.feedMagic c, .feedIdle c, .feedOverflow c, .feedAppend c, .feedComplete c]

/-- The chunk of a FEED case is its operand. -/
theorem mem_feedCasesOf_iff {i : Instr} {c : Chunk} (hi : i ∈ feedCasesOf c) (d : Chunk) :
    i ∈ feedCasesOf d ↔ d = c := by
  simp only [feedCasesOf, List.mem_cons, List.not_mem_nil, or_false] at hi
  rcases hi with rfl | rfl | rfl | rfl | rfl <;> simp [feedCasesOf, eq_comm]

/-- R65's tests in order select exactly what the table of R56 selects: the case whose chunk the magic test admits
(well-formedness) and whose condition the control state meets. -/
theorem feedCase_eq_iff (ctl : Ctl) (c : Chunk) (i : Instr) :
    feedCase ctl c = i ↔ i ∈ feedCasesOf c ∧ i.WellFormed ∧ ctl.selects i = true := by
  constructor
  · rintro rfl
    rcases feedCase_cases ctl c with
      ⟨hm, e⟩ | ⟨hm, hc, e⟩ | ⟨hm, hc, ho, e⟩ | ⟨hm, hc, hl, e⟩ | ⟨hm, hc, ho, hl, e⟩ <;>
      rw [e] <;> simp [feedCasesOf, Instr.WellFormed, Instr.wellFormedAt, Ctl.selects, *]
    case inr.inr.inr.inl => omega
  · rintro ⟨hi, hw, hs⟩
    simp only [feedCasesOf, List.mem_cons, List.not_mem_nil, or_false] at hi
    rcases hi with rfl | rfl | rfl | rfl | rfl <;>
      simp only [Instr.WellFormed, Instr.wellFormedAt, Ctl.selects, Bool.not_eq_true', Bool.and_eq_true,
        decide_eq_true_eq, and_assoc] at hw hs
    · exact feedCase_of_magic ctl c hw
    · exact feedCase_of_idle ctl c hw hs
    · obtain ⟨hc, ho⟩ := hs
      exact feedCase_of_overflow ctl c hw hc ho
    · obtain ⟨hc, -, hl⟩ := hs
      exact feedCase_of_append ctl c hw hc hl
    · obtain ⟨hc, ho, hl⟩ := hs
      exact feedCase_of_complete ctl c hw hc ho hl

/-- When a FEED case is selected, for all five: its row of R56 is met by the strobes, the chunk on the port, the magic
test and the control state. -/
theorem selectedWhen_of_mem_feedCasesOf {i : Instr} {c : Chunk} (hi : i ∈ feedCasesOf c) :
    Machine.SelectedWhen i fun ctl p =>
      p.rst = false ∧ p.chunkValid = true ∧ p.chunkData = c ∧ i.WellFormed ∧ ctl.selects i = true := by
  intro ctl p
  have hb : i.block = .reassembler := by
    simp only [feedCasesOf, List.mem_cons, List.not_mem_nil, or_false] at hi
    rcases hi with rfl | rfl | rfl | rfl | rfl <;> rfl
  rw [hb, decode_reassembler_iff, eq_comm (a := i), feedCase_eq_iff, mem_feedCasesOf_iff hi]

theorem decode_of_chunk (ctl : Ctl) (p : Pins) (hr : p.rst = false) (hc : p.chunkValid = true) :
    decode .reassembler ctl p = .ok (feedCase ctl p.chunkData) :=
  (decode_reassembler_iff _ _ _).2 ⟨hr, hc, rfl⟩

end Sys2Proof

namespace Sys2Proof.Machine

/-- Settles O29: with a chunk on the port the reassembler decodes to R65's case. -/
theorem feedCasesAreTestedInOrder : Obligations.FeedCasesAreTestedInOrder := by
  intro ctl p hr hv
  rw [decode_of_chunk ctl p hr hv]
  refine ⟨fun hm => ?magic, fun hm hc => ?idle, fun hm hc ho => ?overflow, fun hm hc _ hl => ?append,
    fun hm hc ho hl => ?complete⟩
  case magic => rw [feedCase_of_magic ctl _ hm]
  case idle => rw [feedCase_of_idle ctl _ hm hc]
  case overflow => rw [feedCase_of_overflow ctl _ hm hc ho]
  case append => rw [feedCase_of_append ctl _ hm hc hl]
  case complete => rw [feedCase_of_complete ctl _ hm hc ho hl]

/-! ### The magic test (R66) -/

theorem isMagic_iff_toNat (c : Chunk) : isMagic c = true ↔ c.toNat % 65536 = 0xFDFE := by
  simp [isMagic, ← BitVec.toNat_inj]

/-- The low 16 bits of the chunk port are its first two bytes, the first one the lower (R34). -/
theorem chunkByte_toNat_low (c : Chunk) :
    (chunkByte c 0).toNat + 256 * (chunkByte c 1).toNat = c.toNat % 65536 := by
  rw [chunkByte, chunkByte, lane_toNat, lane_toNat]
  omega

/-- Settles O26: two bytes are known by the number they make. -/
theorem magicTestLooksAtTwoBytes : Obligations.MagicTestLooksAtTwoBytes := by
  intro c
  have hlow := chunkByte_toNat_low c
  rw [isMagic_iff_toNat, ← hlow]
  refine ⟨?_, Iff.rfl, Iff.rfl⟩
  rw [← BitVec.toNat_inj, ← BitVec.toNat_inj]
  have h0 := (chunkByte c 0).isLt
  have h1 := (chunkByte c 1).isLt
  change _ ↔ (chunkByte c 0).toNat = 0xFE ∧ (chunkByte c 1).toNat = 0xFD
  omega

/-! ### What each FEED does (R67 to R72) -/

/-- A FEED installs a reassembler state and leaves the rest of the machine alone. -/
theorem onlyAsm_of_asm (s : State) (r : RState) : OnlyAsm s { s with asm := r } := ⟨rfl, rfl, rfl, ⟨rfl, rfl⟩⟩

theorem exec_feedMagic (c : Chunk) (s : State) :
    exec (.feedMagic c) s = .next { s with asm := s.asm.startFrame c } := rfl

theorem exec_feedIdle (c : Chunk) (s : State) : exec (.feedIdle c) s = .next { s with asm := s.asm.hold } := rfl

theorem exec_feedOverflow (c : Chunk) (s : State) :
    exec (.feedOverflow c) s = .next { s with asm := s.asm.dropFrame } := rfl

theorem exec_feedAppend (c : Chunk) (s : State) (h : s.asm.cursor.toNat + 7 ≤ 42) :
    exec (.feedAppend c) s = .next { s with asm := s.asm.append c } := s.storing_next _ h

theorem exec_feedComplete (c : Chunk) (s : State) (h : s.asm.cursor.toNat + 7 ≤ 42) :
    exec (.feedComplete c) s = .next { s with asm := s.asm.complete c } := s.storing_next _ h

/-- The cursor does not wrap where the stored offsets exist. -/
theorem RState.append_cursor_toNat (c : Chunk) (r : RState) (h : r.cursor.toNat + 7 ≤ 42) :
    (r.append c).cursor.toNat = r.cursor.toNat + 7 := by
  have hadd : (r.append c).cursor.toNat = (r.cursor.toNat + 7) % 64 := by simp [BitVec.toNat_add]
  omega

/-- The bytes of the buffer after a storing FEED: the chunk at the old cursor, every other byte as before. -/
theorem RState.append_buf_read (c : Chunk) (r : RState) (a : Nat) (h : r.buf.wf = true) :
    (r.append c).buf.read a =
      if r.cursor.toNat ≤ a ∧ a < r.cursor.toNat + 7 then chunkByte c (a - r.cursor.toNat) else r.buf.read a :=
  Memory.read_writeChunk _ _ c a h

theorem RState.startFrame_buf_read (c : Chunk) (r : RState) (a : Nat) :
    (r.startFrame c).buf.read a = if a < 7 then chunkByte c a else 0 := by
  simpa using Memory.read_writeChunk [] 0 c a Memory.wf_nil

/-- Settles O2: FEED.MAGIC needs nothing of the state, the zeroed buffer being canonical. -/
theorem feedMagicStartsAFrame : Obligations.FeedMagicStartsAFrame := by
  refine fun c => ⟨fun ctl p => ?selection, fun s => ⟨_, exec_feedMagic c s, ?effect⟩⟩
  case selection =>
    simpa [Instr.WellFormed, Instr.wellFormedAt, Ctl.selects] using
      selectedWhen_of_mem_feedCasesOf (i := .feedMagic c) (by simp [feedCasesOf]) ctl p
  case effect =>
    exact ⟨s.asm.startFrame_buf_read c, rfl, rfl, rfl, fun _ => rfl, rfl, onlyAsm_of_asm _ _⟩

/-- Settles O3: the dropped chunk leaves no trace but the end of `report_valid`. -/
theorem feedIdleDropsTheChunk : Obligations.FeedIdleDropsTheChunk := by
  refine fun c => ⟨fun ctl p => ?selection, fun s => ⟨_, exec_feedIdle c s, ?effect⟩⟩
  case selection =>
    simpa [Instr.WellFormed, Instr.wellFormedAt, Ctl.selects] using
      selectedWhen_of_mem_feedCasesOf (i := .feedIdle c) (by simp [feedCasesOf]) ctl p
  case effect => exact ⟨fun _ => rfl, fun _ => rfl, rfl, onlyAsm_of_asm _ _⟩

/-- Settles O4: the buffer and the cursor stay, only the two flags fall. -/
theorem feedOverflowDropsTheFrame : Obligations.FeedOverflowDropsTheFrame := by
  refine fun c => ⟨fun ctl p => ?selection, fun s => ⟨_, exec_feedOverflow c s, ?effect⟩⟩
  case selection =>
    simpa [Instr.WellFormed, Instr.wellFormedAt, Ctl.selects] using
      selectedWhen_of_mem_feedCasesOf (i := .feedOverflow c) (by simp [feedCasesOf]) ctl p
  case effect => exact ⟨fun _ => rfl, fun _ => rfl, rfl, onlyAsm_of_asm _ _⟩

/-- Settles O5: the store in a canonical buffer, and a cursor that does not wrap. -/
theorem feedAppendStoresAtTheCursor : Obligations.FeedAppendStoresAtTheCursor := by
  refine fun c => ⟨fun ctl p => ?selection, fun s hwf hroom => ⟨_, exec_feedAppend c s hroom, ?effect⟩⟩
  case selection =>
    simpa [Instr.WellFormed, Instr.wellFormedAt, Ctl.selects, and_assoc] using
      selectedWhen_of_mem_feedCasesOf (i := .feedAppend c) (by simp [feedCasesOf]) ctl p
  case effect =>
    exact ⟨fun a => s.asm.append_buf_read c a hwf, s.asm.append_cursor_toNat c hroom, rfl, fun _ => rfl, rfl, rfl,
      onlyAsm_of_asm _ _⟩

/-- Settles O6: the store of FEED.APPEND, then the report as the copy of the first 37 bytes. -/
theorem feedCompleteHandsTheReportOver : Obligations.FeedCompleteHandsTheReportOver := by
  refine fun c => ⟨fun ctl p => ?selection, fun s hwf hroom => ⟨_, exec_feedComplete c s hroom, ?effect⟩⟩
  case selection =>
    simpa [Instr.WellFormed, Instr.wellFormedAt, Ctl.selects, and_assoc] using
      selectedWhen_of_mem_feedCasesOf (i := .feedComplete c) (by simp [feedCasesOf]) ctl p
  case effect =>
    exact ⟨fun a => s.asm.append_buf_read c a hwf, s.asm.append_cursor_toNat c hroom, rfl,
      fun o => Memory.read_below 37 _ o, rfl, rfl, onlyAsm_of_asm _ _⟩

/-! ### Blocks without their strobe (R79, R108, R125) -/

theorem DState.next_of_no_eval (d : DState) (r : RState) (p : Pins) (hr : p.rst = false)
    (he : evalStrobed r p = false) : d.next r p = d := by
  simp [DState.next, hr, he]

theorem CState.next_of_no_upd (fc : CState) (p : Pins) (hr : p.rst = false) (hu : p.updValid = false) :
    fc.next p = fc := by
  simp [CState.next, hr, hu]

theorem outputsOf_det_of_no_eval (s : State) (p : Pins) (he : evalStrobed s.asm p = false) :
    (outputsOf s p).det = DetectorOut.quiet := by
  simp [outputsOf, he]

theorem outputsOf_diff_of_no_upd (s : State) (p : Pins) (hu : p.updValid = false) :
    (outputsOf s p).diff = DiffOut.quiet := by
  simp [outputsOf, CState.shown, hu]

@[simp] theorem DetectorOut.quiet_changed (k : Fin Config.nSlots) : DetectorOut.quiet.changed[k] = false := by
  simp [DetectorOut.quiet]

/-- Settles O41: each part of `next` and of `out` by its block's strobe. -/
theorem blocksWithoutStrobeHold : Obligations.BlocksWithoutStrobeHold := by
  intro s hr
  have hstep := step_eq_afterEdge s
  obtain ⟨hasm, hgate, hcells, hout⟩ := step_parts hstep
  refine ⟨_, hstep, ?reassembler, ?detector, ?cellDiff⟩
  case reassembler =>
    intro hc
    rw [hasm, s.asm.next_of_no_chunk _ hr hc]
    rfl
  case detector =>
    intro hv he
    have hno : evalStrobed s.asm s.pins = false := by simp [evalStrobed, hv, he]
    rw [hgate, hout, s.gate.next_of_no_eval _ _ hr hno, outputsOf_det_of_no_eval s _ hno]
    exact ⟨rfl, DetectorOut.quiet_changed, rfl, rfl, rfl⟩
  case cellDiff =>
    intro hu
    rw [hcells, hout, s.cells.next_of_no_upd _ hr hu, outputsOf_diff_of_no_upd s _ hu]
    exact ⟨rfl, fun _ => rfl, rfl⟩

end Sys2Proof.Machine

namespace Sys2Proof

/-! ### Which DEC is selected (R53, R81) -/

/-- The six DEC operations that name a slot, each with its slot (R83 to R88). -/
def axisSlots : List (Instr × Nat) :=
  [(.decWcx, 0), (.decWcy, 1), (.decWcz, 2), (.decMcx, 3), (.decMcy, 4), (.decMcz, 5)]

/-- The table of R53, once: an axis below 3 selects the operation of the slot `3 × cs + axis`, axis 3 selects DEC.OOR. -/
theorem decSelect_cases (cs : Bool) (axis : AxisIndex) :
    (axis.toNat < 3 ∧ (decSelect cs axis, Machine.slotNumber cs axis) ∈ axisSlots) ∨
    (axis = 3 ∧ decSelect cs axis = .decOor cs) := by
  have haxis : ∀ a : AxisIndex, a = 0 ∨ a = 1 ∨ a = 2 ∨ a = 3 := by decide
  rcases haxis axis with rfl | rfl | rfl | rfl
  case inl | inr.inl | inr.inr.inl => cases cs <;> exact .inl (by decide)
  case inr.inr.inr => cases cs <;> exact .inr ⟨rfl, rfl⟩

/-- Operations and slots are in one-to-one correspondence. -/
theorem axisSlots_fst_eq_iff : ∀ x ∈ axisSlots, ∀ y ∈ axisSlots, (x.1 = y.1 ↔ x.2 = y.2) := by decide

theorem axisSlots_ne_decOor : ∀ x ∈ axisSlots, ∀ cs : Bool, x.1 ≠ .decOor cs := by decide

theorem axisSlots_block : ∀ x ∈ axisSlots, x.1.block = .decoder := by decide

theorem decSelect_eq_slot_iff (cs : Bool) (axis : AxisIndex) {x : Instr × Nat} (hx : x ∈ axisSlots) :
    decSelect cs axis = x.1 ↔ axis.toNat < 3 ∧ Machine.slotNumber cs axis = x.2 := by
  rcases decSelect_cases cs axis with ⟨hlt, hmem⟩ | ⟨rfl, e⟩
  · rw [and_iff_right hlt]
    exact axisSlots_fst_eq_iff _ hmem x hx
  · rw [e]
    exact iff_of_false (axisSlots_ne_decOor x hx cs).symm (fun h => absurd h.1 (by decide))

theorem decSelect_eq_decOor_iff (cs cs' : Bool) (axis : AxisIndex) :
    decSelect cs axis = .decOor cs' ↔ cs = cs' ∧ axis = 3 := by
  rcases decSelect_cases cs axis with ⟨hlt, hmem⟩ | ⟨rfl, e⟩
  · refine iff_of_false (axisSlots_ne_decOor _ hmem cs') ?_
    rintro ⟨-, rfl⟩
    exact absurd hlt (by decide)
  · rw [e, Instr.decOor.injEq, and_iff_left rfl]

/-- A DEC operation is selected by what the decoder select gives, in every cycle. -/
theorem selectedWhen_of_decoder {i : Instr} (hb : i.block = .decoder) :
    Machine.SelectedWhen i fun _ p => decSelect p.decCs p.decAxis = i := by
  intro ctl p
  rw [hb, decode_decoder, Except.ok.injEq]

/-! ### The always active ports (R56) -/

theorem block_readPortInstr (r : ReadPort) : (readPortInstr r).block = .port r := by cases r <;> rfl

theorem selectedWhen_readPortInstr (r : ReadPort) : Machine.SelectedWhen (readPortInstr r) fun _ _ => True := by
  intro ctl p
  rw [block_readPortInstr, decode_port]
  exact iff_of_true rfl trivial

end Sys2Proof

namespace Sys2Proof.Machine

/-! ### What DEC and GET leave (R80, R92)

Each shows its result on its own output port; the port is the whole of its effect. -/

theorem sameState_of_out (s : State) (o : Outputs) : SameState s { s with out := o } :=
  ⟨rfl, rfl, rfl, fun _ => rfl, fun _ => rfl⟩

theorem sameWires_of_out (s : State) (o : Outputs) : SameWires s { s with out := o } := ⟨rfl, rfl⟩

theorem exec_axisSlots (s : State) {x : Instr × Nat} (hx : x ∈ axisSlots) : exec x.1 s = .next (s.showSlot x.2) := by
  simp only [axisSlots, List.mem_cons, List.not_mem_nil, or_false] at hx
  rcases hx with rfl | rfl | rfl | rfl | rfl | rfl <;> rfl

theorem exec_decOor (cs : Bool) (s : State) : exec (.decOor cs) s = .next (s.showAxis false 0) := rfl

theorem exec_getMagic (s : State) :
    exec .getMagic s = .next { s with out := { s.out with fMagic := u16le s.asm.rpt 0 } } := rfl

theorem exec_getKey (s : State) :
    exec .getKey s = .next { s with out := { s.out with fKey := s.asm.rpt.read 2 } } := rfl

theorem exec_getFeedOvr (s : State) :
    exec .getFeedOvr s = .next { s with out := { s.out with fFeedOvr := u16le s.asm.rpt 27 } } := rfl

theorem exec_getSpindleOvr (s : State) :
    exec .getSpindleOvr s = .next { s with out := { s.out with fSpindleOvr := u16le s.asm.rpt 29 } } := rfl

theorem exec_getFeed (s : State) :
    exec .getFeed s = .next { s with out := { s.out with fFeed := u16le s.asm.rpt 31 } } := rfl

theorem exec_getSpindle (s : State) :
    exec .getSpindle s = .next { s with out := { s.out with fSpindle := u16le s.asm.rpt 33 } } := rfl

theorem exec_getStep (s : State) :
    exec .getStep s = .next { s with out := { s.out with fStep := s.asm.rpt.read 35 } } := rfl

theorem exec_getState (s : State) :
    exec .getState s = .next { s with out := { s.out with fState := s.asm.rpt.read 36 } } := rfl

/-! ### The decoded slot as numbers (R82, R90) -/

theorem num16_lt (m : Memory) (o : Nat) : num16 m o < 65536 := by
  have hlow := (m.read o).isLt
  have hhigh := (m.read (o + 1)).isLt
  unfold num16
  omega

theorem u16le_toNat_num16 (m : Memory) (o : Nat) : (u16le m o).toNat = num16 m o := u16le_toNat m o

theorem intPart_toNat (m : Memory) (k : Nat) : (intPart m k).toNat = num16 m (3 + 4 * k) := u16le_toNat_num16 m _

theorem fracField_toNat (m : Memory) (k : Nat) : (fracField m k).toNat = num16 m (5 + 4 * k) := u16le_toNat_num16 m _

theorem State.showSlot_decSign (s : State) (k : Nat) :
    (s.showSlot k).out.decSign = true ↔ 32768 ≤ num16 s.asm.rpt (5 + 4 * k) := by
  rw [← fracField_toNat]
  exact fracSign_iff _

theorem State.showSlot_decMag (s : State) (k : Nat) :
    (s.showSlot k).out.decMag.toNat =
      num16 s.asm.rpt (3 + 4 * k) * 10000 + num16 s.asm.rpt (5 + 4 * k) % 32768 := by
  rw [← intPart_toNat, ← fracField_toNat]
  exact magnitude_toNat _ _

/-- R90: the largest magnitude is that of `int` = 65535 and `F` = 32767. -/
theorem State.showSlot_decMag_le (s : State) (k : Nat) : (s.showSlot k).out.decMag.toNat ≤ 655382767 := by
  have hint := num16_lt s.asm.rpt (3 + 4 * k)
  have hfrac := Nat.mod_lt (num16 s.asm.rpt (5 + 4 * k)) (show 32768 > 0 by decide)
  rw [s.showSlot_decMag]
  omega

/-- Settles O8: the selection by the table of R53, the effect by the decoded slot's numbers. -/
theorem axisDecodeShowsTheSlot : Obligations.AxisDecodeShowsTheSlot := by
  intro s x hx
  refine ⟨fun ctl p => ?selection, _, exec_axisSlots s hx, ?effect⟩
  case selection =>
    exact (selectedWhen_of_decoder (axisSlots_block x hx) ctl p).trans (decSelect_eq_slot_iff p.decCs p.decAxis hx)
  case effect =>
    exact ⟨s.showSlot_decSign _, s.showSlot_decMag _, s.showSlot_decMag_le _, rfl, sameState_of_out s _,
      sameWires_of_out s _⟩

/-- Settles O9: DEC.OOR takes the row of R53 that no slot takes. -/
theorem axisOutOfRangeShowsPositiveZero : Obligations.AxisOutOfRangeShowsPositiveZero := by
  refine fun cs s => ⟨fun ctl p => ?selection, _, exec_decOor cs s, ?effect⟩
  case selection =>
    exact (selectedWhen_of_decoder (i := .decOor cs) rfl ctl p).trans (decSelect_eq_decOor_iff p.decCs cs p.decAxis)
  case effect => exact ⟨rfl, sameState_of_out s _, sameWires_of_out s _⟩

/-! ### The field reads (R92 to R99) -/

/-- A held report begins with the marker (R28 (d), R92). -/
theorem RInv.u16le_magic {r : RState} (h : RInv r) (hfull : r.rptFull = true) : u16le r.rpt 0 = 0xFDFE := by
  obtain ⟨h0, h1⟩ := h.fullMagic hfull
  rw [u16le, h0, h1]
  rfl

/-- Settles O10: the ports' values by `u16le_toNat_num16`, the marker by the invariant on a held report. -/
theorem wideFieldReadsShowTheReport : Obligations.WideFieldReadsShowTheReport := by
  refine ⟨?selection, fun s => ⟨⟨_, exec_getMagic s, ?magic⟩, ⟨_, exec_getFeedOvr s, ?feedOvr⟩,
    ⟨_, exec_getSpindleOvr s, ?spindleOvr⟩, ⟨_, exec_getFeed s, ?feed⟩, ⟨_, exec_getSpindle s, ?spindle⟩⟩⟩
  case selection =>
    simp only [List.forall_mem_cons, List.not_mem_nil, false_implies, implies_true, and_true]
    exact ⟨selectedWhen_readPortInstr .magic, selectedWhen_readPortInstr .feedOvr,
      selectedWhen_readPortInstr .spindleOvr, selectedWhen_readPortInstr .feed, selectedWhen_readPortInstr .spindle⟩
  case magic =>
    exact ⟨u16le_toNat_num16 _ _, RInv.u16le_magic, rfl, sameState_of_out s _, sameWires_of_out s _⟩
  case feedOvr | spindleOvr | feed | spindle =>
    exact ⟨u16le_toNat_num16 _ _, rfl, sameState_of_out s _, sameWires_of_out s _⟩

/-- Settles O11: one byte, one port. -/
theorem byteFieldReadsShowTheReport : Obligations.ByteFieldReadsShowTheReport := by
  refine ⟨?selection, fun s => ⟨⟨_, exec_getKey s, ?key⟩, ⟨_, exec_getStep s, ?step⟩, ⟨_, exec_getState s, ?state⟩⟩⟩
  case selection =>
    simp only [List.forall_mem_cons, List.not_mem_nil, false_implies, implies_true, and_true]
    exact ⟨selectedWhen_readPortInstr .key, selectedWhen_readPortInstr .step, selectedWhen_readPortInstr .state⟩
  case key | step | state => exact ⟨rfl, sameState_of_out s _, sameWires_of_out s _⟩

end Sys2Proof.Machine

namespace Sys2Proof.Machine

/-! ### What EVAL decides and writes (R100 to R107) -/

theorem exec_eval (now : Millis) (s : State) :
    exec (.eval now) s = .next { s with
      gate := s.gate.afterEval (encodings s.asm.rpt) now
      out := { s.out with det := evalOut s.gate (encodings s.asm.rpt) now } } := rfl

/-- The strobe of R100, and `now_ms` of the selecting cycle as the operand. -/
theorem selectedWhen_eval (now : Millis) : SelectedWhen (.eval now) fun ctl p =>
    p.rst = false ∧ (ctl.reportValid = true ∨ p.evalStrobe = true) ∧ p.nowMs = now := by
  intro ctl p
  have hblock : (Instr.eval now).block = .detector := rfl
  rw [hblock, decode_detector_iff, Instr.eval.injEq, eq_comm (a := now)]

/-- Encodings are compared as the numbers of R50 (R102). -/
theorem evalOut_changed_iff (d : DState) (m : Memory) (now : Millis) (k : Fin Config.nSlots) :
    (evalOut d (encodings m) now).changed[k] = true ↔
      d.pdcValid[k] = false ∨ d.pdcEnc[k].toNat ≠ encNum m k := by
  rw [← slotEnc_toNat_encNum, ne_eq, BitVec.toNat_inj, ← encodings_get m k]
  exact changedLanes_get d (encodings m) k

theorem evalOut_posDirty_iff (d : DState) (enc : Vector Encoding Config.nSlots) (now : Millis) :
    (evalOut d enc now).posDirty = true ↔ ∃ k : Fin Config.nSlots, (evalOut d enc now).changed[k] = true :=
  posDirtyOf_iff (changedLanes d enc)

theorem evalOut_refreshDue_iff (d : DState) (enc : Vector Encoding Config.nSlots) (now : Millis) :
    (evalOut d enc now).refreshDue = true ↔ 500 < elapsedNum now d.lastRedrawMs := by
  rw [elapsedNum, ← elapsed_toNat]
  exact refreshDueAt_iff now d.lastRedrawMs

theorem evalOut_redraw_iff (d : DState) (enc : Vector Encoding Config.nSlots) (now : Millis) :
    (evalOut d enc now).redraw = true ↔
      (evalOut d enc now).posDirty = true ∨ (evalOut d enc now).refreshDue = true := by
  rw [evalOut_redraw, Bool.or_eq_true]

/-- Every entry is written, its lane changed or not (R106). -/
theorem DState.afterEval_entry (d : DState) (m : Memory) (now : Millis) (k : Fin Config.nSlots) :
    (d.afterEval (encodings m) now).pdcValid[k] = true ∧
      (d.afterEval (encodings m) now).pdcEnc[k].toNat = encNum m k := by
  rw [afterEval_pdcValid, afterEval_pdcEnc, encodings_get, slotEnc_toNat_encNum]
  exact ⟨Vector.getElem_replicate k.isLt, rfl⟩

theorem DState.afterEval_lastRedrawMs_of_redraw (d : DState) (enc : Vector Encoding Config.nSlots) (now : Millis)
    (h : (evalOut d enc now).redraw = true) : (d.afterEval enc now).lastRedrawMs = now := by
  rw [afterEval_lastRedrawMs, if_pos h]

theorem DState.afterEval_lastRedrawMs_of_no_redraw (d : DState) (enc : Vector Encoding Config.nSlots) (now : Millis)
    (h : (evalOut d enc now).redraw = false) : (d.afterEval enc now).lastRedrawMs = d.lastRedrawMs := by
  rw [afterEval_lastRedrawMs, h, if_neg Bool.false_ne_true]

/-- Settles O14: the outputs by R102 to R105, the entries and the redraw time by R106; EVAL writes nothing else. -/
theorem evalDecidesAndRemembers : Obligations.EvalDecidesAndRemembers := by
  intro now s
  refine ⟨selectedWhen_eval now, _, exec_eval now s, ?changed, ?posDirty, ?refreshDue, ?redraw, ?entries, ?redrawn,
    ?notRedrawn, ?frame⟩
  case changed => exact evalOut_changed_iff s.gate s.asm.rpt now
  case posDirty => exact evalOut_posDirty_iff s.gate _ now
  case refreshDue => exact evalOut_refreshDue_iff s.gate _ now
  case redraw => exact evalOut_redraw_iff s.gate _ now
  case entries => exact s.gate.afterEval_entry s.asm.rpt now
  case redrawn => exact s.gate.afterEval_lastRedrawMs_of_redraw _ now
  case notRedrawn => exact s.gate.afterEval_lastRedrawMs_of_no_redraw _ now
  case frame => exact ⟨rfl, fun _ => rfl, fun _ => rfl, rfl, rfl, ⟨rfl, rfl⟩⟩

end Sys2Proof.Machine

namespace Sys2Proof

/-! ### Which of UPD and UPD.REFUSED is selected (R115, R120) -/

theorem updCase_eq_upd_iff (n : Nat) (p : Pins) (f : BitVec 4) (len : Nat) (chr : List CharCode) :
    updCase n p = .upd f len chr ↔
      (p.updField = f ∧ p.updLen = len ∧ p.updChr = chr) ∧ f.toNat < 8 ∧ len ≤ n := by
  by_cases h : p.updField.toNat < 8 ∧ p.updLen ≤ n
  · rw [updCase_of_fits n p h.1 h.2, Instr.upd.injEq]
    refine (and_iff_left_of_imp ?_).symm
    rintro ⟨rfl, rfl, -⟩
    exact h
  · rw [updCase_of_not_fits n p h]
    refine iff_of_false Instr.noConfusion ?_
    rintro ⟨⟨rfl, rfl, -⟩, hfits⟩
    exact h hfits

theorem updCase_eq_updRefused_iff (n : Nat) (p : Pins) (f : BitVec 4) (len : Nat) :
    updCase n p = .updRefused f len ↔ (p.updField = f ∧ p.updLen = len) ∧ (8 ≤ f.toNat ∨ n < len) := by
  by_cases h : p.updField.toNat < 8 ∧ p.updLen ≤ n
  · rw [updCase_of_fits n p h.1 h.2]
    refine iff_of_false Instr.noConfusion ?_
    rintro ⟨⟨rfl, rfl⟩, hrefused⟩
    omega
  · rw [updCase_of_not_fits n p h, Instr.updRefused.injEq]
    refine (and_iff_left_of_imp ?_).symm
    rintro ⟨rfl, rfl⟩
    omega

/-- An operation of level 2 is selected in the cycles with `upd_valid` whose operands make it the case. -/
theorem selectedWhen_of_cellDiff {i : Instr} (hb : i.block = .cellDiff) : Machine.SelectedWhen i fun _ p =>
    p.rst = false ∧ p.updValid = true ∧ updCase Config.fieldMaxLen p = i := by
  intro ctl p
  rw [hb, decode_cellDiff_iff, eq_comm (a := i)]

end Sys2Proof

namespace Sys2Proof.Machine

/-! ### The bars (R123, R124) -/

theorem exec_barFeed (s : State) :
    exec .barFeed s = .next { s with out := { s.out with barFeedPct := barPct (u16le s.asm.rpt 27) } } := rfl

theorem exec_barSpindle (s : State) :
    exec .barSpindle s = .next { s with out := { s.out with barSpindlePct := barPct (u16le s.asm.rpt 29) } } := rfl

theorem barPct_u16le_toNat (m : Memory) (o : Nat) : (barPct (u16le m o)).toNat = min (num16 m o) 100 := by
  rw [barPct_toNat, u16le_toNat_num16]

/-- Settles O12: each bar is an always active port that shows the clamp of its override. -/
theorem barsShowTheClampedOverride : Obligations.BarsShowTheClampedOverride := by
  refine ⟨?selection, fun s => ⟨⟨_, exec_barFeed s, ?feed⟩, ⟨_, exec_barSpindle s, ?spindle⟩⟩⟩
  case selection =>
    simp only [List.forall_mem_cons, List.not_mem_nil, false_implies, implies_true, and_true]
    exact ⟨selectedWhen_readPortInstr .barFeed, selectedWhen_readPortInstr .barSpindle⟩
  case feed | spindle =>
    exact ⟨barPct_u16le_toNat _ _, rfl, sameState_of_out s _, sameWires_of_out s _⟩

/-! ### UPD.REFUSED (R120) -/

theorem exec_updRefused (f : BitVec 4) (len : Nat) (s : State) :
    exec (.updRefused f len) s = .next { s with out := { s.out with diff := DiffOut.quiet } } := rfl

/-- Settles O21: the operands that no UPD takes, and the outputs of a cycle without a UPD. -/
theorem updRefusedChangesNothing : Obligations.UpdRefusedChangesNothing := by
  refine fun f len s => ⟨fun ctl p => ?selection, _, exec_updRefused f len s, ?effect⟩
  case selection =>
    simpa only [updCase_eq_updRefused_iff, and_assoc] using
      selectedWhen_of_cellDiff (i := .updRefused f len) rfl ctl p
  case effect =>
    exact ⟨fun _ => ⟨rfl, rfl⟩, rfl, rfl, sameState_of_out s _, sameWires_of_out s _⟩

/-! ### UPD (R115 to R119) -/

theorem ofNat_field_toNat (f : Fin Config.nDiffFields) : (BitVec.ofNat 4 f).toNat = f :=
  (BitVec.toNat_ofNat _ _).trans (Nat.mod_eq_of_lt (Nat.lt_trans f.isLt (by decide)))

theorem ofNat_field_lt (f : Fin Config.nDiffFields) : (BitVec.ofNat 4 f).toNat < Config.nDiffFields := by
  rw [ofNat_field_toNat]
  exact f.isLt

/-- UPD of a diffed field and a length that fits goes on, and leaves the new string and the cells it asks for. -/
theorem exec_upd (f : Fin Config.nDiffFields) (len : Nat) (chr : List CharCode) (s : State)
    (hl : len ≤ Config.fieldMaxLen) :
    exec (.upd (BitVec.ofNat 4 f) len chr) s = .next { s with
      cells := s.cells.set f (FieldEntry.ofString len chr)
      out := { s.out with diff := diffOut Config.fieldMaxLen s.cells[f] len chr } } := by
  have hexec : exec (.upd (BitVec.ofNat 4 f) len chr) s = _ := dif_pos ⟨ofNat_field_lt f, hl⟩
  simpa only [ofNat_field_toNat, Fin.getElem_fin] using hexec

/-- The field and the length of a UPD are ports of the selecting cycle, the string is all of `upd_chr` (R115). -/
theorem selectedWhen_upd (f : Fin Config.nDiffFields) (len : Nat) (chr : List CharCode)
    (hl : len ≤ Config.fieldMaxLen) : SelectedWhen (.upd (BitVec.ofNat 4 f) len chr) fun _ p =>
      p.rst = false ∧ p.updValid = true ∧ p.updField.toNat = f ∧ p.updLen = len ∧ p.updChr = chr := by
  intro ctl p
  have hfield : p.updField = BitVec.ofNat 4 f ↔ p.updField.toNat = f := by
    rw [← BitVec.toNat_inj, ofNat_field_toNat]
  have hfits : (BitVec.ofNat 4 f).toNat < 8 ∧ len ≤ Config.fieldMaxLen :=
    ⟨ofNat_field_lt f, hl⟩
  simpa only [updCase_eq_upd_iff, and_iff_left hfits, hfield] using
    selectedWhen_of_cellDiff (i := .upd (BitVec.ofNat 4 f) len chr) rfl ctl p

/-- R118 cell by cell, the characters of both strings counted from the right (R117). -/
theorem cellShown_diffOut_eq (n : Nat) (e : FieldEntry) (len : Nat) (chr : List CharCode) (p : Nat) :
    cellShown (diffOut n e len chr).cells p =
      if n ≤ p then .none
      else if p < len ∧ p < e.len then
        (if chr.getD (len - 1 - p) 0 = e.chr.read (e.len - 1 - p) then .none
         else .draw (chr.getD (len - 1 - p) 0))
      else if p < len then .draw (chr.getD (len - 1 - p) 0)
      else if p < e.len then .blank
      else .none := by
  rw [cellShown_diffOut, ← ite_not]
  simp only [Nat.not_lt]
  rfl

/-- `op_any` is the OR over the cells the ports show; past the last cell nothing is shown. -/
theorem diffOut_opAny_iff_cellShown (n : Nat) (e : FieldEntry) (len : Nat) (chr : List CharCode) :
    (diffOut n e len chr).opAny = true ↔ ∃ p, cellShown (diffOut n e len chr).cells p ≠ .none := by
  simp only [diffOut_opAny, cellShown_diffOut, ne_eq, ite_eq_right_iff, Classical.not_imp]

/-- Settles O19: the cells by R118, the entry by the laws of a stored string, the rest untouched by the update. -/
theorem updDrawsTheDifferenceAndReplacesTheString : Obligations.UpdDrawsTheDifferenceAndReplacesTheString := by
  intro f len chr s hl
  have hnew : (s.cells.set f (FieldEntry.ofString len chr))[f] = FieldEntry.ofString len chr :=
    Vector.getElem_set_self f.isLt
  refine ⟨selectedWhen_upd f len chr hl, _, exec_upd f len chr s hl, ?cells, ?opAny, ?newLen, ?newChars, ?others,
    ?frame⟩
  case cells => exact cellShown_diffOut_eq _ s.cells[f] len chr
  case opAny => exact diffOut_opAny_iff_cellShown _ s.cells[f] len chr
  case newLen => exact congrArg FieldEntry.len hnew
  case newChars =>
    intro i
    exact (congrArg (·.chr.read i) hnew).trans (FieldEntry.ofString_read len chr i)
  case others =>
    intro g hg
    exact Vector.getElem_set_ne f.isLt g.isLt (Fin.val_ne_of_ne hg.symm)
  case frame => exact ⟨rfl, fun _ => rfl, fun _ => rfl, rfl, rfl, ⟨rfl, rfl⟩⟩

end Sys2Proof.Machine

namespace Sys2Proof.Machine

/-! ### What RESET leaves (R165) -/

theorem exec_reset (s : State) : exec .reset s = .next s.clear := rfl

theorem selectedWhen_reset : SelectedWhen .reset fun _ p => p.rst = true := by
  intro ctl p
  have hblock : Instr.reset.block = .system := rfl
  rw [hblock, decode_system_iff, and_iff_left rfl]

@[simp] theorem DState.reset_pdcValid (k : Fin Config.nSlots) : DState.reset.pdcValid[k] = false :=
  Vector.getElem_replicate k.isLt

@[simp] theorem DState.reset_pdcEnc (k : Fin Config.nSlots) : DState.reset.pdcEnc[k] = 0 :=
  Vector.getElem_replicate k.isLt

@[simp] theorem CState.reset_get (f : Fin Config.nDiffFields) : CState.reset[f] = FieldEntry.empty :=
  Vector.getElem_replicate f.isLt

/-- No offset of an empty string's space is listed, so every character reads 0x00. -/
@[simp] theorem FieldEntry.empty_read (i : Nat) : FieldEntry.empty.chr.read i = 0 := Memory.read_nil i

/-- Settles O1: RESET leaves `State.clear`, and each element of that state has its value of R26. -/
theorem resetGivesEveryElementItsResetValue : Obligations.ResetGivesEveryElementItsResetValue := by
  refine ⟨selectedWhen_reset, fun s => ⟨s.clear, exec_reset s, ?buf, rfl, rfl, ?rpt, rfl, rfl, ?entries, rfl, ?strings,
    s.clear_out, ⟨s.clear_pins, s.clear_script⟩⟩⟩
  case buf | rpt => exact Memory.read_nil
  case entries => exact fun k => ⟨DState.reset_pdcValid k, DState.reset_pdcEnc k⟩
  case strings =>
    intro f
    have hempty : s.clear.cells[f] = FieldEntry.empty := CState.reset_get f
    rw [hempty]
    exact ⟨rfl, FieldEntry.empty_read⟩

end Sys2Proof.Machine

namespace Sys2Proof

/-! ### Decode and encode agree (R56)

Each operation is selected by the row of R56 that `SelectedWhen` states; its encoding meets that row. -/

theorem block_of_mem_feedCasesOf {i : Instr} {c : Chunk} (hi : i ∈ feedCasesOf c) : i.block = .reassembler := by
  simp only [feedCasesOf, List.mem_cons, List.not_mem_nil, or_false] at hi
  rcases hi with rfl | rfl | rfl | rfl | rfl <;> rfl

theorem block_decSelect (cs : Bool) (axis : AxisIndex) : (decSelect cs axis).block = .decoder := by
  rcases decSelect_cases cs axis with ⟨-, hmem⟩ | ⟨-, e⟩
  · exact axisSlots_block _ hmem
  · rw [e]; rfl

theorem encode_of_mem_feedCasesOf {i : Instr} {c : Chunk} (hi : i ∈ feedCasesOf c) :
    encode i = { Pins.idle with chunkValid := true, chunkData := c } := by
  simp only [feedCasesOf, List.mem_cons, List.not_mem_nil, or_false] at hi
  rcases hi with rfl | rfl | rfl | rfl | rfl <;> rfl

theorem decode_encode_feed {i : Instr} {c : Chunk} (hi : i ∈ feedCasesOf c) (ctl : Ctl) (hw : i.WellFormed)
    (hs : ctl.selects i = true) : decode i.block ctl (encode i) = .ok i := by
  refine (selectedWhen_of_mem_feedCasesOf hi ctl _).2 ?_
  rw [encode_of_mem_feedCasesOf hi]
  exact ⟨rfl, rfl, rfl, hw, hs⟩

theorem decode_encode_upd (ctl : Ctl) (f : BitVec 4) (len : Nat) (chr : List CharCode)
    (hw : (Instr.upd f len chr).WellFormed) :
    decode .cellDiff ctl (encode (.upd f len chr)) = .ok (.upd f len chr) := by
  simp only [Instr.WellFormed, Instr.wellFormedAt, Bool.and_eq_true, decide_eq_true_eq] at hw
  obtain ⟨hfits, -⟩ := hw
  exact (selectedWhen_of_cellDiff rfl ctl _).2 ⟨rfl, rfl, (updCase_eq_upd_iff _ _ f len chr).2 ⟨⟨rfl, rfl, rfl⟩, hfits⟩⟩

theorem decode_encode_updRefused (ctl : Ctl) (f : BitVec 4) (len : Nat) (hw : (Instr.updRefused f len).WellFormed) :
    decode .cellDiff ctl (encode (.updRefused f len)) = .ok (.updRefused f len) := by
  simp only [Instr.WellFormed, Instr.wellFormedAt, Bool.and_eq_true, Bool.or_eq_true, decide_eq_true_eq] at hw
  obtain ⟨hrefused, -⟩ := hw
  exact (selectedWhen_of_cellDiff rfl ctl _).2 ⟨rfl, rfl, (updCase_eq_updRefused_iff _ _ f len).2 ⟨⟨rfl, rfl⟩, hrefused⟩⟩

/-- Settles O31: operation by operation. The FEED cases and the two updates are told apart by their conditions of R56,
DEC and the ports by the selection alone. -/
theorem decodeOfEncodeIsTheOperation : Obligations.DecodeOfEncodeIsTheOperation := by
  intro i ctl hw hs
  cases i with
  | feedMagic c | feedIdle c | feedOverflow c | feedAppend c | feedComplete c =>
    exact decode_encode_feed (c := c) (by simp [feedCasesOf]) ctl hw hs
  | upd f len chr => exact decode_encode_upd ctl f len chr hw
  | updRefused f len => exact decode_encode_updRefused ctl f len hw
  | eval now => exact (Machine.selectedWhen_eval now ctl _).2 ⟨rfl, .inr rfl, rfl⟩
  | decOor cs => exact (selectedWhen_of_decoder rfl ctl _).2 ((decSelect_eq_decOor_iff _ _ _).2 ⟨rfl, rfl⟩)
  | reset | decWcx | decWcy | decWcz | decMcx | decMcy | decMcz => rfl
  | getMagic | getKey | getFeedOvr | getSpindleOvr | getFeed | getSpindle | getStep | getState => rfl
  | barFeed | barSpindle => rfl

/-! ### What the decoder answers -/

/-- An answer of a block belongs to it, whatever the ports carry. -/
theorem block_of_decode {b : Block} {ctl : Ctl} {p : Pins} {i : Instr} (h : decode b ctl p = .ok i) : i.block = b := by
  cases b with
  | system =>
    obtain ⟨-, rfl⟩ := (decode_system_iff ctl p i).1 h
    rfl
  | reassembler =>
    obtain ⟨-, -, rfl⟩ := (decode_reassembler_iff ctl p i).1 h
    exact block_of_mem_feedCasesOf ((feedCase_eq_iff ctl p.chunkData _).1 rfl).1
  | decoder =>
    cases (decode_decoder ctl p).symm.trans h
    exact block_decSelect _ _
  | port r =>
    cases (decode_port ctl p r).symm.trans h
    exact block_readPortInstr r
  | detector =>
    obtain ⟨-, -, rfl⟩ := (decode_detector_iff ctl p i).1 h
    rfl
  | cellDiff =>
    obtain ⟨-, -, rfl⟩ := (decode_cellDiff_iff ctl p i).1 h
    unfold updCase
    split <;> rfl

/-- A FEED that the decoder answers meets its row of R56, whatever the ports carry. -/
theorem feed_of_decode {ctl : Ctl} {p : Pins} {i : Instr} (h : decode .reassembler ctl p = .ok i) :
    i.WellFormed ∧ ctl.selects i = true := by
  obtain ⟨-, -, rfl⟩ := (decode_reassembler_iff ctl p i).1 h
  exact ((feedCase_eq_iff ctl p.chunkData _).1 rfl).2

theorem decSelect_wellFormed (ctl : Ctl) (cs : Bool) (axis : AxisIndex) :
    (decSelect cs axis).WellFormed ∧ ctl.selects (decSelect cs axis) = true := by
  rcases decSelect_cases cs axis with ⟨-, hmem⟩ | ⟨-, e⟩
  · simp only [axisSlots, List.mem_cons, List.not_mem_nil, or_false, Prod.mk.injEq] at hmem
    rcases hmem with ⟨e, -⟩ | ⟨e, -⟩ | ⟨e, -⟩ | ⟨e, -⟩ | ⟨e, -⟩ | ⟨e, -⟩ <;> rw [e] <;> exact ⟨rfl, rfl⟩
  · rw [e]; exact ⟨rfl, rfl⟩

/-- Ports within their widths give UPD and UPD.REFUSED operands within the same widths. -/
theorem updCase_wellFormed (ctl : Ctl) (p : Pins) (hp : p.WellFormed) :
    (updCase Config.fieldMaxLen p).WellFormed ∧ ctl.selects (updCase Config.fieldMaxLen p) = true := by
  simp only [Pins.WellFormed, Pins.wellFormedAt, Bool.and_eq_true, decide_eq_true_eq] at hp
  obtain ⟨hlen, hlanes⟩ := hp
  by_cases hfits : p.updField.toNat < 8 ∧ p.updLen ≤ Config.fieldMaxLen
  · rw [updCase_of_fits _ _ hfits.1 hfits.2]
    exact ⟨by simp [Instr.WellFormed, Instr.wellFormedAt, hfits, hlanes], rfl⟩
  · rw [updCase_of_not_fits _ _ hfits]
    have hrefused : 8 ≤ p.updField.toNat ∨ Config.fieldMaxLen < p.updLen := by omega
    exact ⟨by simp [Instr.WellFormed, Instr.wellFormedAt, hrefused, hlen], rfl⟩

/-- Settles O32: block by block. -/
theorem decodedOperationsAreSelected : Obligations.DecodedOperationsAreSelected := by
  intro b ctl p i hp h
  suffices hws : i.WellFormed ∧ ctl.selects i = true from ⟨hws.1, block_of_decode h, hws.2⟩
  cases b with
  | system =>
    obtain ⟨-, rfl⟩ := (decode_system_iff ctl p i).1 h
    exact ⟨rfl, rfl⟩
  | reassembler => exact feed_of_decode h
  | decoder =>
    cases (decode_decoder ctl p).symm.trans h
    exact decSelect_wellFormed ctl _ _
  | port r =>
    cases (decode_port ctl p r).symm.trans h
    cases r <;> exact ⟨rfl, rfl⟩
  | detector =>
    obtain ⟨-, -, rfl⟩ := (decode_detector_iff ctl p i).1 h
    exact ⟨rfl, rfl⟩
  | cellDiff =>
    obtain ⟨-, -, rfl⟩ := (decode_cellDiff_iff ctl p i).1 h
    exact updCase_wellFormed ctl p hp

/-- The stops of a frame in progress (R74), as numbers. -/
theorem Machine.RInv.collecting_stops {r : Machine.RState} (h : Machine.RInv r) (hc : r.collecting = true) :
    r.cursor.toNat = 7 ∨ r.cursor.toNat = 14 ∨ r.cursor.toNat = 21 ∨ r.cursor.toNat = 28 ∨ r.cursor.toNat = 35 := by
  simpa using h.collectingCursor hc

/-- Settles O30: a selected FEED of data is collecting, where the cursor is at one of its stops below 42. -/
theorem overflowIsNeverSelected : Obligations.OverflowIsNeverSelected := by
  intro s p c hinv
  have hstops := hinv.collecting_stops
  refine ⟨fun h => ?overflow, fun h => ?append, fun h => ?complete⟩
  case overflow =>
    obtain ⟨-, -, -, -, hc, ho⟩ := ((Machine.feedOverflowDropsTheFrame c).1 s.ctl p).1 h
    have hstop := hstops hc
    rw [Machine.State.ctl_cursor] at ho
    omega
  case append =>
    obtain ⟨-, -, -, -, hc, -, hl⟩ := ((Machine.feedAppendStoresAtTheCursor c).1 s.ctl p).1 h
    have hstop := hstops hc
    rw [Machine.State.ctl_cursor] at hl
    simp only [List.mem_cons, List.not_mem_nil, or_false]
    omega
  case complete =>
    obtain ⟨-, -, -, -, hc, -, hl⟩ := ((Machine.feedCompleteHandsTheReportOver c).1 s.ctl p).1 h
    have hstop := hstops hc
    rw [Machine.State.ctl_cursor] at hl
    omega

/-- Settles O33: both chunks by the magic test, the eight values of `sel` by evaluation. -/
theorem specWordsDecode : Obligations.SpecWordsDecode := by
  refine ⟨?magic, ?data, by decide⟩
  case magic =>
    exact (decode_of_chunk _ _ rfl rfl).trans (congrArg _ (feedCase_of_magic _ _ (by decide)))
  case data =>
    exact (decode_of_chunk _ _ rfl rfl).trans (congrArg _ (feedCase_of_idle _ _ (by decide) rfl))

end Sys2Proof

namespace Sys2Proof.Machine

/-! ### The step as `next` and `out` (R132, R133) -/

/-- Settles O36: `step_eq_afterEdge` names the next state. -/
theorem everyStepAnswersANextState : Obligations.EveryStepAnswersANextState := fun s => ⟨_, step_eq_afterEdge s⟩

/-- Settles O37: the parts of the state after the edge are those of `next`, its record is `out`. -/
theorem stepIsNextAndOut : Obligations.StepIsNextAndOut :=
  fun s => ⟨_, step_eq_afterEdge s, step_parts (step_eq_afterEdge s)⟩

theorem DState.next_of_rst (d : DState) (r : RState) (p : Pins) (h : p.rst = true) : d.next r p = DState.reset :=
  if_pos h

theorem CState.next_of_rst (fc : CState) (p : Pins) (h : p.rst = true) : fc.next p = CState.reset := if_pos h

/-- No output port looks at `rst` (R140). -/
theorem outputsOf_release_rst (s : State) :
    outputsOf { s with pins := { s.pins with rst := false } } { s.pins with rst := false } = outputsOf s s.pins := rfl

/-- Settles O42: each part of `next` under `rst`, and `out` of the same cycle without it. -/
theorem resetOverridesTheCycle : Obligations.ResetOverridesTheCycle := by
  intro s hr
  have hstep := step_eq_afterEdge s
  have hstep' := step_eq_afterEdge { s with pins := { s.pins with rst := false } }
  obtain ⟨hasm, hgate, hcells, hout⟩ := step_parts hstep
  obtain ⟨-, -, -, hout'⟩ := step_parts hstep'
  refine ⟨_, _, hstep, hstep', ?_, ?_, ?_, ?_⟩
  · rw [hasm, RState.next_of_rst _ _ hr]
  · rw [hgate, DState.next_of_rst _ _ _ hr]
  · rw [hcells, CState.next_of_rst _ _ hr]
  · rw [hout, hout', outputsOf_release_rst]

theorem DState.next_of_eval (d : DState) (r : RState) (p : Pins) (hr : p.rst = false) (he : evalStrobed r p = true) :
    d.next r p = d.afterEval (encodings r.rpt) p.nowMs := by
  simp [DState.next, hr, he]

/-- Without `rst` a set entry stays set: EVAL sets every entry, and no other operation writes one (R106, R108). -/
theorem DState.next_pdcValid (d : DState) (r : RState) (p : Pins) (hr : p.rst = false) (k : Fin Config.nSlots)
    (h : d.pdcValid[k] = true) : (d.next r p).pdcValid[k] = true := by
  cases he : evalStrobed r p with
  | false => rwa [d.next_of_no_eval r p hr he]
  | true =>
    rw [d.next_of_eval r p hr he]
    exact (d.afterEval_entry r.rpt p.nowMs k).1

/-- Settles O44: an entry set before and unset after a step belongs to a cycle with `rst`. -/
theorem onlyResetUnsetsTheDirtyCache : Obligations.OnlyResetUnsetsTheDirtyCache := by
  intro s t k hset hstep hunset
  obtain ⟨-, hgate, -, -⟩ := step_parts hstep
  by_contra hr
  have hstays := s.gate.next_pdcValid s.asm s.pins (by simpa using hr) k hset
  rw [← hgate] at hstays
  exact Bool.false_ne_true (hunset.symm.trans hstays)

/-! ### The operations of a cycle, block by block (R56) -/

theorem mem_cycleBlocks {b : Block} (hb : b ≠ .system) : b ∈ cycleBlocks := by
  cases b with
  | system => exact absurd rfl hb
  | port r => cases r <;> decide
  | reassembler | decoder | detector | cellDiff => decide

/-- What some of the blocks run in a cycle, in order, `rst` released (log 4). -/
def opsOf (bs : List Block) (ctl : Ctl) (p : Pins) : List Instr :=
  bs.filterMap fun b => (decode b ctl { p with rst := false }).toOption

theorem cycleOps_eq_opsOf (ctl : Ctl) (p : Pins) :
    cycleOps ctl p = opsOf cycleBlocks ctl p ++ (if p.rst then [.reset] else []) := rfl

theorem mem_opsOf_iff {bs : List Block} {ctl : Ctl} {p : Pins} {i : Instr} :
    i ∈ opsOf bs ctl p ↔ ∃ b ∈ bs, decode b ctl { p with rst := false } = .ok i := by
  have hok : ∀ e : Except DecodeError Instr, e.toOption = some i ↔ e = .ok i := by
    rintro (e | j) <;> simp [Except.toOption]
  simp only [opsOf, List.mem_filterMap, hok]

/-- A block that decodes runs its operation after those of the blocks before it and before those of the blocks after. -/
theorem opsOf_split {bs cs : List Block} {b : Block} {ctl : Ctl} {p : Pins} {i : Instr}
    (h : decode b ctl { p with rst := false } = .ok i) :
    opsOf (bs ++ b :: cs) ctl p = opsOf bs ctl p ++ i :: opsOf cs ctl p := by
  simp [opsOf, h, Except.toOption]

/-- Settles O34: the decoded operations are the cycle's by its blocks, RESET by its place in the list, and the step by
its definition. -/
theorem stepRunsTheDecodedOperations : Obligations.StepRunsTheDecodedOperations := by
  refine ⟨fun s b i hb h => ?member, fun s hr => ?resetLast, fun s t h => step_of_runOps s t h⟩
  case member =>
    rw [cycleOps_eq_opsOf]
    exact List.mem_append_left _ (mem_opsOf_iff.2 ⟨b, mem_cycleBlocks hb, h⟩)
  case resetLast =>
    rw [cycleOps_eq_opsOf, if_pos hr]
    exact List.getLast?_concat

/-! ### What the operation of one block leaves to the others (R29, R133) -/

/-- Each part of the state is written by the operations of one block, and by RESET. -/
structure WritesOwnPart (i : Instr) (s t : State) : Prop where
  asm : i.block ≠ .reassembler → i.block ≠ .system → t.asm = s.asm
  gate : i.block ≠ .detector → i.block ≠ .system → t.gate = s.gate
  cells : i.block ≠ .cellDiff → i.block ≠ .system → t.cells = s.cells

theorem writesOwnPart_of_asm {i : Instr} (hi : i.block = .reassembler) (s : State) (r : RState) :
    WritesOwnPart i s { s with asm := r } := ⟨fun h => absurd hi h, fun _ _ => rfl, fun _ _ => rfl⟩

theorem writesOwnPart_of_out (i : Instr) (s : State) (o : Outputs) : WritesOwnPart i s { s with out := o } :=
  ⟨fun _ _ => rfl, fun _ _ => rfl, fun _ _ => rfl⟩

theorem exec_writesOwnPart {i : Instr} {s t : State} (h : exec i s = .next t) : WritesOwnPart i s t := by
  cases i with
  | reset => exact ⟨fun _ h => absurd rfl h, fun _ h => absurd rfl h, fun _ h => absurd rfl h⟩
  | feedMagic c | feedIdle c | feedOverflow c =>
    cases h
    exact writesOwnPart_of_asm rfl s _
  | feedAppend c | feedComplete c =>
    rcases State.storing_cases s _ _ h with ⟨-, e⟩ | ⟨-, e⟩
    · cases e
      exact writesOwnPart_of_asm rfl s _
    · cases e
  | eval now =>
    cases h
    exact ⟨fun _ _ => rfl, fun h => absurd rfl h, fun _ _ => rfl⟩
  | upd f len chr =>
    rcases updateField_cases _ f len chr s _ h with ⟨hf, -, e⟩ | ⟨-, e⟩
    · cases e
      exact ⟨fun _ _ => rfl, fun _ _ => rfl, fun h => absurd rfl h⟩
    · cases e
  | decWcx | decWcy | decWcz | decMcx | decMcy | decMcz | decOor | updRefused | barFeed | barSpindle =>
    cases h
    exact writesOwnPart_of_out _ s _
  | getMagic | getKey | getFeedOvr | getSpindleOvr | getFeed | getSpindle | getStep | getState =>
    cases h
    exact writesOwnPart_of_out _ s _

/-- A run of operations of which none belongs to the writer of a part leaves the part as it was. -/
theorem runOps_keeps {α : Type} (part : State → α) {is : List Instr} {s t : State}
    (hkeep : ∀ i ∈ is, ∀ u v, exec i u = .next v → part v = part u) (h : runOps is s = .next t) :
    part t = part s := by
  induction is generalizing s with
  | nil => cases h; rfl
  | cons i is ih =>
    simp only [runOps] at h
    split at h
    next v hv =>
      exact (ih (fun j hj => hkeep j (List.mem_cons_of_mem i hj)) h).trans (hkeep i List.mem_cons_self s v hv)
    next => cases h
    next => cases h

/-- A run that goes to its end passes through each of its operations. -/
theorem runOps_split {is js : List Instr} {i : Instr} {s t : State} (h : runOps (is ++ i :: js) s = .next t) :
    ∃ u v, runOps is s = .next u ∧ exec i u = .next v ∧ runOps js v = .next t := by
  induction is generalizing s with
  | nil =>
    simp only [List.nil_append, runOps] at h
    split at h
    next v hv => exact ⟨s, v, rfl, hv, h⟩
    next => cases h
    next => cases h
  | cons j is ih =>
    simp only [List.cons_append, runOps] at h ⊢
    split at h
    next w hw =>
      obtain ⟨u, v, hu, hv, ht⟩ := ih h
      exact ⟨u, v, by simpa [hw] using hu, hv, ht⟩
    next => cases h
    next => cases h

/-! ### Readers before writers (R133) -/

/-- The blocks that run before a given one in a cycle. -/
def blocksBefore (b : Block) : List Block := cycleBlocks.takeWhile (· ≠ b)

/-- The blocks that run after a given one in a cycle. -/
def blocksAfter (b : Block) : List Block := (cycleBlocks.dropWhile (· ≠ b)).tail

theorem cycleBlocks_split {b : Block} (hb : b ≠ .system) : cycleBlocks = blocksBefore b ++ b :: blocksAfter b := by
  cases b with
  | system => exact absurd rfl hb
  | port r => cases r <;> rfl
  | reassembler | decoder | detector | cellDiff => rfl

theorem not_mem_blocksBefore_self (b : Block) : b ∉ blocksBefore b :=
  fun h => by simpa using List.mem_takeWhile_imp h

theorem mem_cycleBlocks_of_mem_blocksBefore {b c : Block} (h : c ∈ blocksBefore b) : c ∈ cycleBlocks :=
  (List.takeWhile_sublist _).subset h

/-- RESET is no block of a cycle, and the reassembler is the last. -/
theorem reassembler_not_mem_blocksBefore {b : Block} (hb : b ≠ .system) : .reassembler ∉ blocksBefore b := by
  cases b with
  | system => exact absurd rfl hb
  | port r => cases r <;> decide
  | reassembler | decoder | detector | cellDiff => decide

/-- Only the reassembler runs after UPD. -/
theorem cellDiff_not_mem_blocksBefore {b : Block} (hb : b ≠ .system) (hr : b ≠ .reassembler) :
    .cellDiff ∉ blocksBefore b := by
  cases b with
  | system => exact absurd rfl hb
  | reassembler => exact absurd rfl hr
  | port r => cases r <;> decide
  | decoder | detector | cellDiff => decide

/-- What runs before a block: operations of the blocks before it, none of which is RESET. -/
theorem block_of_mem_opsOf_before {b : Block} {ctl : Ctl} {p : Pins} {i : Instr}
    (h : i ∈ opsOf (blocksBefore b) ctl p) : i.block ∈ blocksBefore b ∧ i.block ≠ .system := by
  obtain ⟨c, hc, hi⟩ := mem_opsOf_iff.1 h
  rw [block_of_decode hi]
  refine ⟨hc, ?_⟩
  rintro rfl
  exact absurd (mem_cycleBlocks_of_mem_blocksBefore hc) (by decide)

/-- Settles O35: the cycle's operations are split at the block's own; what runs before it belongs to the blocks before
it, none of which writes what the operation reads. -/
theorem eachOperationReadsTheStateBeforeTheEdge : Obligations.EachOperationReadsTheStateBeforeTheEdge := by
  intro s b i hb hi
  have hsplit : cycleOps s.ctl s.pins = opsOf (blocksBefore b) s.ctl s.pins ++ i ::
      (opsOf (blocksAfter b) s.ctl s.pins ++ (if s.pins.rst then [.reset] else [])) := by
    rw [cycleOps_eq_opsOf, cycleBlocks_split hb, opsOf_split hi, List.append_assoc, List.cons_append]
  have hrun := runOps_cycleOps s
  rw [hsplit] at hrun
  obtain ⟨u, v, hu, hv, ht⟩ := runOps_split hrun
  refine ⟨_, _, u, v, _, hsplit, hu, hv, ht, step_eq_afterEdge s, ?asm, ?gate, ?cells⟩
  case asm =>
    refine runOps_keeps State.asm (fun j hj w x hx => ?_) hu
    obtain ⟨hbefore, hsys⟩ := block_of_mem_opsOf_before hj
    exact (exec_writesOwnPart hx).asm (ne_of_mem_of_not_mem hbefore (reassembler_not_mem_blocksBefore hb)) hsys
  case gate =>
    rintro rfl
    rw [← s.beginCycle_gate]
    refine runOps_keeps State.gate (fun j hj w x hx => ?_) hu
    obtain ⟨hbefore, hsys⟩ := block_of_mem_opsOf_before hj
    exact (exec_writesOwnPart hx).gate (ne_of_mem_of_not_mem hbefore (not_mem_blocksBefore_self _)) hsys
  case cells =>
    intro hr
    rw [← s.beginCycle_cells]
    refine runOps_keeps State.cells (fun j hj w x hx => ?_) hu
    obtain ⟨hbefore, hsys⟩ := block_of_mem_opsOf_before hj
    exact (exec_writesOwnPart hx).cells (ne_of_mem_of_not_mem hbefore (cellDiff_not_mem_blocksBefore hb hr)) hsys

end Sys2Proof.Machine

namespace Sys2Proof.Machine

/-! ### The reassembler's transitions (R65, R73)

`feed` in each of the cases of R56, by the case's conditions. -/

theorem RState.feed_of_magic (r : RState) {c : Chunk} (hm : isMagic c = true) : r.feed c = r.startFrame c := if_pos hm

theorem RState.feed_of_idle (r : RState) {c : Chunk} (hm : isMagic c = false) (hc : r.collecting = false) :
    r.feed c = r.hold := by
  rw [feed, if_neg (by simp [hm]), if_pos hc]

theorem RState.feed_of_overflow (r : RState) {c : Chunk} (hm : isMagic c = false) (hc : r.collecting = true)
    (ho : 42 < r.cursor.toNat + 7) : r.feed c = r.dropFrame := by
  rw [feed, if_neg (by simp [hm]), if_neg (by simp [hc]), if_pos ho]

theorem RState.feed_of_append (r : RState) {c : Chunk} (hm : isMagic c = false) (hc : r.collecting = true)
    (hl : r.cursor.toNat + 7 < 37) : r.feed c = r.append c := by
  have ho : ¬ 42 < r.cursor.toNat + 7 := by omega
  rw [feed, if_neg (by simp [hm]), if_neg (by simp [hc]), if_neg ho, if_pos hl]

theorem RState.feed_of_complete (r : RState) {c : Chunk} (hm : isMagic c = false) (hc : r.collecting = true)
    (ho : r.cursor.toNat + 7 ≤ 42) (hl : 37 ≤ r.cursor.toNat + 7) : r.feed c = r.complete c := by
  rw [feed, if_neg (by simp [hm]), if_neg (by simp [hc]), if_neg (Nat.not_lt_of_le ho), if_neg (Nat.not_lt_of_le hl)]

theorem RState.complete_cursor_toNat (c : Chunk) (r : RState) (h : r.cursor.toNat + 7 ≤ 42) :
    (r.complete c).cursor.toNat = r.cursor.toNat + 7 := r.append_cursor_toNat c h

/-- Settles O45: row by row of R73, by the case of `feed` that the row meets. -/
theorem reassemblerFollowsItsTransitionTable : Obligations.ReassemblerFollowsItsTransitionTable := by
  intro s hr
  have hstep := step_eq_afterEdge s
  obtain ⟨hasm, -, -, -⟩ := step_parts hstep
  refine ⟨_, hstep, ?_⟩
  rw [hasm]
  refine ⟨fun hv hm => ?magic, fun hv hm hc => ?idle, fun n hn hv hm hc hcur => ?append, fun hv hm hc hcur => ?complete,
    fun hv => ?noChunk⟩
  case magic =>
    rw [s.asm.next_of_chunk _ hr hv, s.asm.feed_of_magic hm]
    exact ⟨rfl, rfl, rfl⟩
  case idle =>
    rw [s.asm.next_of_chunk _ hr hv, s.asm.feed_of_idle hm hc]
    exact ⟨hc, rfl⟩
  case append =>
    have hn4 : n ≤ 4 := by
      simp only [List.mem_cons, List.not_mem_nil, or_false] at hn
      omega
    rw [s.asm.next_of_chunk _ hr hv, s.asm.feed_of_append hm hc (by omega)]
    refine ⟨hc, ?_, rfl⟩
    rw [s.asm.append_cursor_toNat _ (by omega), hcur]
    omega
  case complete =>
    rw [s.asm.next_of_chunk _ hr hv, s.asm.feed_of_complete hm hc (by omega) (by omega)]
    exact ⟨rfl, by rw [s.asm.complete_cursor_toNat _ (by omega), hcur], rfl⟩
  case noChunk =>
    rw [s.asm.next_of_no_chunk _ hr hv]
    exact ⟨rfl, rfl, rfl⟩

/-! ### The four blocks apart (R141) -/

/-- Which case `feed` takes is decided by the chunk and the reassembler's own state, so the block apart does what `feed`
does, and its result is what `feed` hands over. -/
theorem RState.feed_eq_feedBlock (r : RState) (c : Chunk) :
    (r.feed c).assembler = (feedBlock r.assembler c).1 ∧
    (r.feed c).rpt = (feedBlock r.assembler c).2.getD r.rpt ∧
    (r.feed c).rptFull = (r.rptFull || (feedBlock r.assembler c).2.isSome) ∧
    (r.feed c).reportValid = (feedBlock r.assembler c).2.isSome := by
  unfold feedBlock
  rcases r.feed_cases c with ⟨hm, e⟩ | ⟨hm, hc, e⟩ | ⟨hm, hc, ho, e⟩ | ⟨hm, hc, hl, e⟩ | ⟨hm, hc, ho, hl, e⟩ <;> rw [e]
  · rw [(ofAssembler r.assembler).feed_of_magic hm]
    simp [RState.assembler]
  · rw [(ofAssembler r.assembler).feed_of_idle hm hc]
    simp [RState.assembler]
  · rw [(ofAssembler r.assembler).feed_of_overflow hm hc ho]
    simp [RState.assembler]
  · rw [(ofAssembler r.assembler).feed_of_append hm hc hl]
    simp [RState.assembler]
  · rw [(ofAssembler r.assembler).feed_of_complete hm hc ho hl]
    simp [RState.assembler]

/-- EVAL's block in a cycle with `report_valid` (R137). -/
theorem gate_det_of_reportValid {s t : State} (hr : s.pins.rst = false) (hv : s.asm.reportValid = true)
    (h : step s = .next t) : (t.gate, t.out.det) = evalBlock s.gate (encodings s.asm.rpt) s.pins.nowMs := by
  obtain ⟨-, hgate, -, hout⟩ := step_parts h
  have he : evalStrobed s.asm s.pins = true := by simp [evalStrobed, hv]
  rw [hgate, hout, s.gate.next_of_eval _ _ hr he]
  simp [outputsOf, he, evalBlock]

/-- Settles O38: `next` and `out` part by part; the encodings of a report handed over are those of `rpt` one cycle later. -/
theorem stepIsTheBlocksComposed : Obligations.StepIsTheBlocksComposed := by
  intro s hr
  have hstep := step_eq_afterEdge s
  generalize s.afterEdge.endCycle = t at hstep
  obtain ⟨hasm, -, hcells, hout⟩ := step_parts hstep
  refine ⟨t, hstep, fun hv => ?feed, fun hv => gate_det_of_reportValid hr hv hstep, fun axis ha => ?axis,
    fun hv => ?upd, fun r u hv hsome hr' hstep' => ?evalNext⟩
  case feed =>
    rw [hasm, s.asm.next_of_chunk _ hr hv]
    exact s.asm.feed_eq_feedBlock _
  case axis =>
    have haxis : BitVec.ofNat _ axis = s.pins.decAxis := by rw [← ha, BitVec.ofNat_toNat, BitVec.setWidth_eq]
    rw [hout, decodeBlock, haxis]
    rfl
  case upd =>
    rw [hcells, hout]
    simp [CState.next, outputsOf, CState.shown, hr, hv]
  case evalNext =>
    obtain ⟨-, hrpt, -, hvalid⟩ := s.asm.feed_eq_feedBlock s.pins.chunkData
    rw [hsome, ← s.asm.next_of_chunk _ hr hv, ← hasm] at hrpt hvalid
    have heval := gate_det_of_reportValid hr' hvalid hstep'
    rwa [hrpt] at heval

/-! ### A report's two cycles (R134) -/

/-- Settles O46: the outputs show the state before the edge, which holds the new report from the second cycle on;
while `report_valid` is 1 no frame is in progress, so no other report completes. -/
theorem reportIsVisibleOneCycleLater : Obligations.ReportIsVisibleOneCycleLater := by
  intro s t u hst htu hdec
  obtain ⟨hasm, -, -, hout⟩ := step_parts hst
  obtain ⟨hasm', hgate', -, hout'⟩ := step_parts htu
  obtain ⟨hr, hv, hcase⟩ := (decode_reassembler_iff _ _ _).1 hdec
  have hfeed : s.asm.next s.pins = s.asm.complete s.pins.chunkData := by
    rw [s.asm.next_of_chunk _ hr hv]
    rcases s.feedCase_feed_cases s.pins.chunkData with ⟨hi, -⟩ | ⟨hi, -⟩ | ⟨hi, -⟩ | ⟨hi, -⟩ | ⟨-, -, e⟩
    case inr.inr.inr.inr => exact e
    all_goals rw [hi] at hcase; cases hcase
  have hvalid : t.asm.reportValid = true := by rw [hasm, hfeed]; rfl
  have hfull : t.asm.rptFull = true := by rw [hasm, hfeed]; rfl
  have hidle : t.asm.collecting = false := by rw [hasm, hfeed]; rfl
  have he : evalStrobed t.asm t.pins = true := by simp [evalStrobed, hvalid]
  rw [hout, hout']
  refine ⟨rfl, rfl, hvalid, hfull, rfl, rfl, ?det, fun hr' => ?gate, ?valid⟩
  case det => simp [outputsOf, he]
  case gate => rw [hgate', t.gate.next_of_eval _ _ hr' he]
  case valid =>
    rw [hasm', ← Bool.not_eq_true, State.next_reportValid_iff]
    intro hdec'
    obtain ⟨-, -, -, -, hc, -⟩ := ((feedCompleteHandsTheReportOver _).1 t.ctl t.pins).1 hdec'
    rw [State.ctl_collecting, hidle] at hc
    cases hc

end Sys2Proof.Machine

namespace Sys2Proof.Machine

/-! ### The invariants (R28, R74)

Each part of `next` keeps its part of the invariants, case by case. -/

/-- A magic chunk's first bytes are the marker (R66). -/
theorem chunkByte_of_magic {c : Chunk} (hm : isMagic c = true) : chunkByte c 0 = 0xFE ∧ chunkByte c 1 = 0xFD :=
  (magicTestLooksAtTwoBytes c).1.1 hm

theorem RInv.reset : RInv RState.reset where
  bufWf := rfl
  bufWithin := rfl
  rptWf := rfl
  rptWithin := rfl
  cursorStops := by decide
  collectingCursor := by decide
  collectingMagic := by decide
  fullMagic := by decide
  validFull := by decide
  validIdle := by decide

theorem RInv.hold {r : RState} (h : RInv r) : RInv r.hold where
  bufWf := h.bufWf
  bufWithin := h.bufWithin
  rptWf := h.rptWf
  rptWithin := h.rptWithin
  cursorStops := h.cursorStops
  collectingCursor := h.collectingCursor
  collectingMagic := h.collectingMagic
  fullMagic := h.fullMagic
  validFull := fun hv => Bool.noConfusion hv
  validIdle := fun hv => Bool.noConfusion hv

theorem RInv.startFrame {r : RState} (h : RInv r) {c : Chunk} (hm : isMagic c = true) : RInv (r.startFrame c) where
  bufWf := Memory.wf_writeBytes _ _ _ Memory.wf_nil
  bufWithin := Memory.within_writeBytes _ _ _ _ (Memory.within_nil _) (by simp)
  rptWf := h.rptWf
  rptWithin := h.rptWithin
  cursorStops := by simp
  collectingCursor := fun _ => by simp
  collectingMagic := fun _ => by
    rw [r.startFrame_buf_read, r.startFrame_buf_read]
    exact chunkByte_of_magic hm
  fullMagic := h.fullMagic
  validFull := fun hv => Bool.noConfusion hv
  validIdle := fun hv => Bool.noConfusion hv

/-- A store from the first stop on leaves the buffer canonical, in its 42 bytes, and with the marker where it was. -/
theorem RInv.append_buf {r : RState} (h : RInv r) (c : Chunk) (hc : r.collecting = true)
    (ho : r.cursor.toNat + 7 ≤ 42) :
    (r.append c).buf.wf = true ∧ (r.append c).buf.within Config.bufCap = true ∧
      (r.append c).buf.read 0 = 0xFE ∧ (r.append c).buf.read 1 = 0xFD := by
  obtain ⟨h0, h1⟩ := h.collectingMagic hc
  have hstop := h.collecting_stops hc
  have hpast : ∀ a < 7, (r.append c).buf.read a = r.buf.read a := by
    intro a ha
    rw [r.append_buf_read c a h.bufWf, if_neg (by omega)]
  refine ⟨Memory.wf_writeBytes _ _ _ h.bufWf, Memory.within_writeBytes _ _ _ _ h.bufWithin ?_, ?_, ?_⟩
  · rwa [chunkBytes_length]
  · rw [hpast 0 (by omega), h0]
  · rw [hpast 1 (by omega), h1]

theorem RInv.append {r : RState} (h : RInv r) (c : Chunk) (hc : r.collecting = true)
    (hl : r.cursor.toNat + 7 < 37) : RInv (r.append c) := by
  obtain ⟨hwf, hwithin, hmagic⟩ := h.append_buf c hc (by omega)
  have hstop := h.collecting_stops hc
  have hnext := r.append_cursor_toNat c (by omega)
  have hnextStop : (r.append c).cursor.toNat ∈ [7, 14, 21, 28, 35] := by
    simp only [List.mem_cons, List.not_mem_nil, or_false, hnext]
    omega
  exact
    { bufWf := hwf, bufWithin := hwithin, rptWf := h.rptWf, rptWithin := h.rptWithin
      cursorStops := List.mem_cons_of_mem 0 (List.mem_append_left [42] hnextStop)
      collectingCursor := fun _ => hnextStop
      collectingMagic := fun _ => hmagic
      fullMagic := h.fullMagic
      validFull := fun hv => Bool.noConfusion hv
      validIdle := fun hv => Bool.noConfusion hv }

/-- The report is the first 37 bytes of a buffer that begins with the marker. -/
theorem RInv.complete {r : RState} (h : RInv r) (c : Chunk) (hc : r.collecting = true)
    (ho : r.cursor.toNat + 7 ≤ 42) (hl : 37 ≤ r.cursor.toNat + 7) : RInv (r.complete c) := by
  obtain ⟨hwf, hwithin, h0, h1⟩ := h.append_buf c hc ho
  have hstop := h.collecting_stops hc
  have hnext := r.complete_cursor_toNat c ho
  have hrpt : ∀ a < 37, (r.complete c).rpt.read a = (r.append c).buf.read a := fun a ha =>
    (Memory.read_below 37 _ a).trans (if_pos ha)
  exact
    { bufWf := hwf, bufWithin := hwithin, rptWf := Memory.wf_below _ _ hwf, rptWithin := Memory.within_below _ _
      cursorStops := by
        simp only [List.mem_cons, List.not_mem_nil, or_false, hnext]
        omega
      collectingCursor := fun hv => Bool.noConfusion hv
      collectingMagic := fun hv => Bool.noConfusion hv
      fullMagic := fun _ => by rw [hrpt 0 (by omega), hrpt 1 (by omega)]; exact ⟨h0, h1⟩
      validFull := fun _ => rfl
      validIdle := fun _ => rfl }

theorem RInv.feed {r : RState} (h : RInv r) (c : Chunk) : RInv (r.feed c) := by
  rcases r.feed_cases c with ⟨hm, e⟩ | ⟨-, -, e⟩ | ⟨-, hc, ho, -⟩ | ⟨-, hc, hl, e⟩ | ⟨-, hc, ho, hl, e⟩
  · rw [e]; exact h.startFrame hm
  · rw [e]; exact h.hold
  · have hstop := h.collecting_stops hc
    omega
  · rw [e]; exact h.append c hc hl
  · rw [e]; exact h.complete c hc ho hl

/-- The three ways in which the reassembler's part of `next` goes on (R65, R79, R140). -/
theorem RState.next_cases (r : RState) (p : Pins) :
    (p.rst = true ∧ r.next p = RState.reset) ∨
    (p.rst = false ∧ p.chunkValid = true ∧ r.next p = r.feed p.chunkData) ∨
    (p.rst = false ∧ p.chunkValid = false ∧ r.next p = r.hold) := by
  cases hr : p.rst with
  | true => exact .inl ⟨rfl, r.next_of_rst p hr⟩
  | false =>
    cases hv : p.chunkValid with
    | true => exact .inr (.inl ⟨rfl, rfl, r.next_of_chunk p hr hv⟩)
    | false => exact .inr (.inr ⟨rfl, rfl, r.next_of_no_chunk p hr hv⟩)

theorem RInv.next {r : RState} (h : RInv r) (p : Pins) : RInv (r.next p) := by
  rcases r.next_cases p with ⟨-, e⟩ | ⟨-, -, e⟩ | ⟨-, -, e⟩ <;> rw [e]
  · exact RInv.reset
  · exact h.feed p.chunkData
  · exact h.hold

theorem DInv.reset : DInv DState.reset := ⟨fun j k => by rw [DState.reset_pdcValid, DState.reset_pdcValid]⟩

/-- The three ways in which level 1 goes on (R107, R108, R140). -/
theorem DState.next_cases (d : DState) (r : RState) (p : Pins) :
    (p.rst = true ∧ d.next r p = DState.reset) ∨
    (p.rst = false ∧ evalStrobed r p = true ∧ d.next r p = d.afterEval (encodings r.rpt) p.nowMs) ∨
    (p.rst = false ∧ evalStrobed r p = false ∧ d.next r p = d) := by
  cases hr : p.rst with
  | true => exact .inl ⟨rfl, d.next_of_rst r p hr⟩
  | false =>
    cases he : evalStrobed r p with
    | true => exact .inr (.inl ⟨rfl, rfl, d.next_of_eval r p hr he⟩)
    | false => exact .inr (.inr ⟨rfl, rfl, d.next_of_no_eval r p hr he⟩)

/-- EVAL sets all six entries, RESET unsets them, and nothing else writes one. -/
theorem DInv.next {d : DState} (h : DInv d) (r : RState) (p : Pins) : DInv (d.next r p) := by
  rcases d.next_cases r p with ⟨-, e⟩ | ⟨-, -, e⟩ | ⟨-, -, e⟩ <;> rw [e]
  · exact DInv.reset
  · exact ⟨fun j k => by rw [(d.afterEval_entry _ _ j).1, (d.afterEval_entry _ _ k).1]⟩
  · exact h

/-- What level 2 asks of each entry (R28 (g), R30). -/
structure EntryInv (e : FieldEntry) : Prop where
  lenLe : e.len ≤ Config.fieldMaxLen
  chrWf : e.chr.wf = true
  chrWithin : e.chr.within Config.fieldMaxLen = true

theorem cInv_iff (fc : CState) : CInv fc ↔ ∀ f : Fin Config.nDiffFields, EntryInv fc[f] :=
  ⟨fun h f => ⟨h.lenLe f, h.chrWf f, h.chrWithin f⟩,
    fun h => ⟨fun f => (h f).lenLe, fun f => (h f).chrWf, fun f => (h f).chrWithin⟩⟩

theorem EntryInv.empty : EntryInv FieldEntry.empty := ⟨Nat.zero_le _, rfl, rfl⟩

theorem EntryInv.ofString {len : Nat} (h : len ≤ Config.fieldMaxLen) (chr : List CharCode) :
    EntryInv (FieldEntry.ofString len chr) :=
  ⟨h, FieldEntry.ofString_wf len chr, FieldEntry.ofString_within len _ chr h⟩

theorem CInv.reset : CInv CState.reset := (cInv_iff _).2 fun f => by rw [CState.reset_get]; exact EntryInv.empty

/-- The three ways in which level 2 goes on (R119, R120, R125, R140). -/
theorem CState.next_cases (fc : CState) (p : Pins) :
    (p.rst = true ∧ fc.next p = CState.reset) ∨
    (p.rst = false ∧ p.updValid = true ∧
      fc.next p = (updBlock Config.fieldMaxLen fc p.updField p.updLen p.updChr).1) ∨
    (p.rst = false ∧ p.updValid = false ∧ fc.next p = fc) := by
  cases hr : p.rst with
  | true => exact .inl ⟨rfl, fc.next_of_rst p hr⟩
  | false =>
    cases hv : p.updValid with
    | true => exact .inr (.inl ⟨rfl, rfl, by simp [CState.next, hr, hv]⟩)
    | false => exact .inr (.inr ⟨rfl, rfl, fc.next_of_no_upd p hr hv⟩)

theorem CInv.next {fc : CState} (h : CInv fc) (p : Pins) : CInv (fc.next p) := by
  rcases fc.next_cases p with ⟨-, e⟩ | ⟨-, -, e⟩ | ⟨-, -, e⟩ <;> rw [e]
  · exact CInv.reset
  · refine (cInv_iff _).2 fun f => ?_
    rw [updBlock_entry]
    split
    next hfits => exact EntryInv.ofString hfits.2 _
    next => exact (cInv_iff fc).1 h f
  · exact h

/-- Settles O39: the parts of a step are those of `next`, each of which keeps its invariants. -/
theorem stepKeepsTheInvariants : Obligations.StepKeepsTheInvariants := by
  intro s t hinv hstep
  obtain ⟨hasm, hgate, hcells, -⟩ := step_parts hstep
  exact ⟨hasm ▸ hinv.asm.next s.pins, hgate ▸ hinv.gate.next s.asm s.pins, hcells ▸ hinv.cells.next s.pins⟩

/-- Settles O40: part by part. -/
theorem resetMeetsTheInvariants : Obligations.ResetMeetsTheInvariants := ⟨RInv.reset, DInv.reset, CInv.reset⟩

end Sys2Proof.Machine

namespace Sys2Proof.Machine

/-! ### Hidden state (R25)

Two states that differ only in what is hidden are compared part by part: what each part shows and what it goes on to
is a function of the rest. -/

/-- `HiddenOnly`'s clauses on the reassembler. -/
structure HiddenAsm (r q : RState) : Prop where
  collecting : q.collecting = r.collecting
  cursor : r.collecting = true → q.cursor = r.cursor
  bufBytes : r.collecting = true → ∀ a < Config.reportLen, q.buf.read a = r.buf.read a
  rptBytes : ∀ a, q.rpt.read a = r.rpt.read a
  rptFull : q.rptFull = r.rptFull
  reportValid : q.reportValid = r.reportValid

/-- `HiddenOnly`'s clauses on level 1. -/
structure HiddenGate (d e : DState) : Prop where
  pdcValid : e.pdcValid = d.pdcValid
  pdcEnc : ∀ k : Fin Config.nSlots, d.pdcValid[k] = true → e.pdcEnc[k] = d.pdcEnc[k]
  lastRedrawMs : e.lastRedrawMs = d.lastRedrawMs

/-- `HiddenOnly`'s clauses on one entry of level 2. -/
structure HiddenEntry (d e : FieldEntry) : Prop where
  len : e.len = d.len
  chars : ∀ i < d.len, e.chr.read i = d.chr.read i

/-- `HiddenOnly`'s clauses on level 2. -/
def HiddenCells (fc gc : CState) : Prop := ∀ f : Fin Config.nDiffFields, HiddenEntry fc[f] gc[f]

theorem hiddenOnly_iff (s t : State) : HiddenOnly s t ↔
    HiddenAsm s.asm t.asm ∧ HiddenGate s.gate t.gate ∧ HiddenCells s.cells t.cells ∧ SameWires s t := by
  constructor
  · intro h
    exact ⟨⟨h.collecting, h.cursor, h.bufBytes, h.rptBytes, h.rptFull, h.reportValid⟩,
      ⟨h.pdcValid, h.pdcEnc, h.lastRedrawMs⟩, fun f => ⟨h.lens f, h.chars f⟩, h.wires⟩
  · rintro ⟨ha, hg, hc, hw⟩
    exact ⟨ha.collecting, ha.cursor, ha.bufBytes, ha.rptBytes, ha.rptFull, ha.reportValid, hg.pdcValid, hg.pdcEnc,
      hg.lastRedrawMs, fun f => (hc f).len, fun f => (hc f).chars, hw⟩

theorem HiddenAsm.refl (r : RState) : HiddenAsm r r := ⟨rfl, fun _ => rfl, fun _ _ _ => rfl, fun _ => rfl, rfl, rfl⟩

theorem HiddenGate.refl (d : DState) : HiddenGate d d := ⟨rfl, fun _ _ => rfl, rfl⟩

theorem HiddenEntry.refl (e : FieldEntry) : HiddenEntry e e := ⟨rfl, fun _ _ => rfl⟩

/-! #### The reassembler -/

theorem HiddenAsm.hold {r q : RState} (h : HiddenAsm r q) : HiddenAsm r.hold q.hold :=
  ⟨h.collecting, h.cursor, h.bufBytes, h.rptBytes, h.rptFull, rfl⟩

theorem HiddenAsm.dropFrame {r q : RState} (h : HiddenAsm r q) : HiddenAsm r.dropFrame q.dropFrame :=
  ⟨rfl, fun hc => Bool.noConfusion hc, fun hc => Bool.noConfusion hc, h.rptBytes, h.rptFull, rfl⟩

/-- A new frame keeps nothing of the buffer and the cursor. -/
theorem HiddenAsm.startFrame {r q : RState} (h : HiddenAsm r q) (c : Chunk) :
    HiddenAsm (r.startFrame c) (q.startFrame c) :=
  ⟨rfl, fun _ => rfl, fun _ _ _ => rfl, h.rptBytes, h.rptFull, rfl⟩

/-- A chunk stored at the same cursor leaves the same visible bytes. -/
theorem HiddenAsm.append_buf {r q : RState} (h : HiddenAsm r q) (hr : r.buf.wf = true) (hq : q.buf.wf = true)
    (c : Chunk) (hc : r.collecting = true) :
    ∀ a < Config.reportLen, (q.append c).buf.read a = (r.append c).buf.read a := by
  intro a ha
  rw [q.append_buf_read c a hq, r.append_buf_read c a hr, h.cursor hc, h.bufBytes hc a ha]

theorem HiddenAsm.append {r q : RState} (h : HiddenAsm r q) (hr : r.buf.wf = true) (hq : q.buf.wf = true)
    (c : Chunk) (hc : r.collecting = true) : HiddenAsm (r.append c) (q.append c) where
  collecting := h.collecting
  cursor := fun _ => by rw [RState.append_cursor, RState.append_cursor, h.cursor hc]
  bufBytes := fun _ => h.append_buf hr hq c hc
  rptBytes := h.rptBytes
  rptFull := h.rptFull
  reportValid := rfl

/-- The hand-off reads the visible bytes only, and hides the buffer. -/
theorem HiddenAsm.complete {r q : RState} (h : HiddenAsm r q) (hr : r.buf.wf = true) (hq : q.buf.wf = true)
    (c : Chunk) (hc : r.collecting = true) : HiddenAsm (r.complete c) (q.complete c) where
  collecting := rfl
  cursor := fun hc' => Bool.noConfusion hc'
  bufBytes := fun hc' => Bool.noConfusion hc'
  rptBytes := fun a => by
    have hread : ∀ m : RState, (m.complete c).rpt.read a = if a < 37 then (m.append c).buf.read a else 0 :=
      fun m => Memory.read_below 37 _ a
    rw [hread, hread]
    split
    next ha => exact h.append_buf hr hq c hc a ha
    next => rfl
  rptFull := rfl
  reportValid := rfl

/-- The chunk, `collecting` and the cursor of a frame in progress decide the case of `feed`, and none of them is hidden. -/
theorem HiddenAsm.feed {r q : RState} (h : HiddenAsm r q) (hr : r.buf.wf = true) (hq : q.buf.wf = true) (c : Chunk) :
    HiddenAsm (r.feed c) (q.feed c) := by
  rcases r.feed_cases c with ⟨hm, e⟩ | ⟨hm, hc, e⟩ | ⟨hm, hc, ho, e⟩ | ⟨hm, hc, hl, e⟩ | ⟨hm, hc, ho, hl, e⟩ <;>
    rw [e]
  · rw [q.feed_of_magic hm]
    exact h.startFrame c
  · rw [q.feed_of_idle hm (h.collecting.trans hc)]
    exact h.hold
  · rw [← h.cursor hc] at ho
    rw [q.feed_of_overflow hm (h.collecting.trans hc) ho]
    exact h.dropFrame
  · rw [← h.cursor hc] at hl
    rw [q.feed_of_append hm (h.collecting.trans hc) hl]
    exact h.append hr hq c hc
  · rw [← h.cursor hc] at ho hl
    rw [q.feed_of_complete hm (h.collecting.trans hc) ho hl]
    exact h.complete hr hq c hc

theorem HiddenAsm.next {r q : RState} (h : HiddenAsm r q) (hr : r.buf.wf = true) (hq : q.buf.wf = true) (p : Pins) :
    HiddenAsm (r.next p) (q.next p) := by
  rcases r.next_cases p with ⟨hrst, e⟩ | ⟨hrst, hv, e⟩ | ⟨hrst, hv, e⟩ <;> rw [e]
  · rw [q.next_of_rst p hrst]
    exact HiddenAsm.refl _
  · rw [q.next_of_chunk p hrst hv]
    exact h.feed hr hq p.chunkData
  · rw [q.next_of_no_chunk p hrst hv]
    exact h.hold

/-! #### What is read of the report -/

theorem u16le_congr {m n : Memory} (h : ∀ a, n.read a = m.read a) (o : Nat) : u16le n o = u16le m o := by
  rw [u16le, u16le, h, h]

theorem intPart_congr {m n : Memory} (h : ∀ a, n.read a = m.read a) (k : Nat) : intPart n k = intPart m k :=
  u16le_congr h _

theorem fracField_congr {m n : Memory} (h : ∀ a, n.read a = m.read a) (k : Nat) : fracField n k = fracField m k :=
  u16le_congr h _

theorem encodings_congr {m n : Memory} (h : ∀ a, n.read a = m.read a) : encodings n = encodings m := by
  simp only [encodings, slotEnc, intPart_congr h, fracField_congr h]

theorem decodeAxis_congr {m n : Memory} (h : ∀ a, n.read a = m.read a) (cs : Bool) (axis : AxisIndex) :
    decodeAxis n cs axis = decodeAxis m cs axis := by
  simp only [decodeAxis, intPart_congr h, fracField_congr h]

theorem reportPort_congr {m n : Memory} (h : ∀ a, n.read a = m.read a) : reportPort n = reportPort m := by
  rw [reportPort, reportPort, funext h]

/-! #### Level 1 -/

theorem evalStrobed_congr {r q : RState} (h : HiddenAsm r q) (p : Pins) : evalStrobed q p = evalStrobed r p := by
  rw [evalStrobed, evalStrobed, h.reportValid]

/-- The encoding of an unset entry is compared with nothing (R102). -/
theorem HiddenGate.changedLanes {d e : DState} (h : HiddenGate d e) (enc : Vector Encoding Config.nSlots) :
    changedLanes e enc = changedLanes d enc := by
  refine Vector.ext fun i hi => ?_
  have hlane := changedLanes_get d enc ⟨i, hi⟩
  have hlane' := changedLanes_get e enc ⟨i, hi⟩
  have henc := h.pdcEnc ⟨i, hi⟩
  rw [h.pdcValid] at hlane'
  rw [Fin.getElem_fin] at hlane hlane'
  rw [Bool.eq_iff_iff, hlane, hlane']
  cases hv : d.pdcValid[(⟨i, hi⟩ : Fin Config.nSlots)] with
  | false => simp
  | true => rw [henc hv]

theorem HiddenGate.evalOut {d e : DState} (h : HiddenGate d e) (enc : Vector Encoding Config.nSlots) (now : Millis) :
    evalOut e enc now = evalOut d enc now := by
  simp only [Machine.evalOut, h.changedLanes, h.lastRedrawMs]

/-- After an EVAL nothing of level 1 is hidden. -/
theorem HiddenGate.afterEval {d e : DState} (h : HiddenGate d e) (enc : Vector Encoding Config.nSlots) (now : Millis) :
    e.afterEval enc now = d.afterEval enc now := by
  simp only [DState.afterEval, h.evalOut, h.lastRedrawMs]

theorem HiddenGate.next {d e : DState} (h : HiddenGate d e) {r q : RState} (ha : HiddenAsm r q) (p : Pins) :
    HiddenGate (d.next r p) (e.next q p) := by
  rcases d.next_cases r p with ⟨hrst, e'⟩ | ⟨hrst, he, e'⟩ | ⟨hrst, he, e'⟩ <;> rw [e']
  · rw [e.next_of_rst q p hrst]
    exact HiddenGate.refl _
  · rw [e.next_of_eval q p hrst ((evalStrobed_congr ha p).trans he), encodings_congr ha.rptBytes, h.afterEval]
    exact HiddenGate.refl _
  · rw [e.next_of_no_eval q p hrst ((evalStrobed_congr ha p).trans he)]
    exact h

/-! #### Level 2 -/

/-- A cell of the old string is compared where the string has a character. -/
theorem HiddenEntry.cellOpAt {d e : FieldEntry} (h : HiddenEntry d e) (len : Nat) (chr : List CharCode) (p : Nat) :
    cellOpAt e len chr p = cellOpAt d len chr p := by
  unfold Machine.cellOpAt
  rw [h.len]
  by_cases hp : p < len ∧ p < d.len
  · have hold : oldAt e p = oldAt d p := by
      rw [oldAt, oldAt, h.len]
      exact h.chars _ (by omega)
    rw [hold]
  · rw [if_neg hp, if_neg hp]

theorem HiddenEntry.diffOut {d e : FieldEntry} (h : HiddenEntry d e) (n len : Nat) (chr : List CharCode) :
    diffOut n e len chr = diffOut n d len chr := by
  simp only [Machine.diffOut, h.cellOpAt]

theorem HiddenCells.updBlock {fc gc : CState} (h : HiddenCells fc gc) (n : Nat) (f : BitVec 4) (len : Nat)
    (chr : List CharCode) :
    HiddenCells (updBlock n fc f len chr).1 (updBlock n gc f len chr).1 ∧
      (updBlock n gc f len chr).2 = (updBlock n fc f len chr).2 := by
  refine ⟨fun g => ?entries, ?shown⟩
  case entries =>
    rw [updBlock_entry, updBlock_entry]
    split
    next => exact HiddenEntry.refl _
    next => exact h g
  case shown =>
    rcases updBlock_cases n fc f len chr with ⟨hf, hl, e⟩ | ⟨hn, e⟩ <;> rw [e]
    · rcases updBlock_cases n gc f len chr with ⟨hf', -, e'⟩ | ⟨hn, -⟩
      · rw [e']
        exact (h ⟨f.toNat, hf⟩).diffOut n len chr
      · exact absurd ⟨hf, hl⟩ hn
    · rw [Machine.updBlock, dif_neg hn]

theorem HiddenCells.next {fc gc : CState} (h : HiddenCells fc gc) (p : Pins) : HiddenCells (fc.next p) (gc.next p) := by
  unfold CState.next
  split
  · exact fun f => HiddenEntry.refl _
  · split
    · exact (h.updBlock _ _ _ _).1
    · exact h

theorem HiddenCells.shown {fc gc : CState} (h : HiddenCells fc gc) (p : Pins) : gc.shown p = fc.shown p := by
  unfold CState.shown
  split
  · exact (h.updBlock _ _ _ _).2
  · rfl

/-! #### The whole machine -/

theorem HiddenOnly.outputsOf {s t : State} (h : HiddenOnly s t) : outputsOf t t.pins = outputsOf s s.pins := by
  obtain ⟨ha, hg, hc, hw⟩ := (hiddenOnly_iff s t).1 h
  have hrpt := ha.rptBytes
  simp only [Machine.outputsOf, u8, hw.pins, ha.reportValid, ha.rptFull, reportPort_congr hrpt, u16le_congr hrpt, hrpt,
    decodeAxis_congr hrpt, evalStrobed_congr ha, encodings_congr hrpt, hg.evalOut, hc.shown]

/-- The next inputs are those of the ports and the script alone. -/
theorem SameWires.endCycle {s t : State} (h : SameWires s t) : SameWires s.endCycle t.endCycle := by
  have hs := s.endCycle_wires
  have ht := t.endCycle_wires
  rw [h.pins, h.script, ← hs, Prod.mk.injEq] at ht
  exact ⟨ht.1, ht.2⟩

/-- Settles O49: `out` is the same, and each part of `next` hides what it hid before. -/
theorem hiddenStateIsUnobservable : Obligations.HiddenStateIsUnobservable := by
  intro s t hs ht h
  have hstep := step_eq_afterEdge s
  have hstep' := step_eq_afterEdge t
  obtain ⟨hasm, hgate, hcells, hout⟩ := step_parts hstep
  obtain ⟨hasm', hgate', hcells', hout'⟩ := step_parts hstep'
  obtain ⟨ha, hg, hc, hw⟩ := (hiddenOnly_iff s t).1 h
  refine ⟨_, _, hstep, hstep', ?_, (hiddenOnly_iff _ _).2 ⟨?_, ?_, ?_, ?_⟩⟩
  · rw [hout, hout', h.outputsOf]
  · rw [hasm, hasm', hw.pins]
    exact ha.next hs ht s.pins
  · rw [hgate, hgate', hw.pins]
    exact hg.next ha s.pins
  · rw [hcells, hcells', hw.pins]
    exact hc.next s.pins
  · exact SameWires.endCycle ⟨hw.pins, hw.script⟩

end Sys2Proof.Machine

namespace Sys2Proof.Machine

/-! ### Encoding a fixed-point number and decoding it (R90, R91) -/

/-- The DEC operation of each slot (R53). -/
theorem dec_of_slot : ∀ k : Fin 6, ∃ x ∈ axisSlots, x.2 = k.val ∧
    x.1 ∈ [Instr.decWcx, .decWcy, .decWcz, .decMcx, .decMcy, .decMcz][k.val]? := by decide

/-- Settles O13: the field's low 15 bits are the fraction and its top bit is the sign, so DEC reads back what was
encoded. -/
theorem fixedPointRoundTripIsExact : Obligations.FixedPointRoundTripIsExact := by
  intro k int frac sign s _ hfrac hint hfld
  obtain ⟨x, hx, hslot, hi⟩ := dec_of_slot k
  refine ⟨x.1, _, hi, exec_axisSlots s hx, ?mag, ?sign, s.showSlot_decMag_le _⟩
  case mag =>
    rw [s.showSlot_decMag, hslot, hint, hfld]
    omega
  case sign =>
    have hsign := s.showSlot_decSign x.2
    rw [hslot, hfld] at hsign
    rw [hslot, Bool.eq_iff_iff, hsign]
    cases sign with
    | false => simpa using hfrac
    | true => simp

/-! ### Where a storing operation stops (log 6) -/

theorem State.storing_fault (s : State) (r : RState) (h : 42 < s.asm.cursor.toNat + 7) :
    s.storing r = .fault (.bufferRange (s.asm.cursor.toNat + 6)) := if_neg (Nat.not_le_of_lt h)

/-- Settles O7: both cases store through `State.storing`. -/
theorem storingPastTheBufferStops : Obligations.StoringPastTheBufferStops :=
  fun _ s h => ⟨s.storing_fault _ h, s.storing_fault _ h⟩

/-- Settles O20: no entry has the number, or the string does not fit, so `updateField` has no place to store to. -/
theorem updWithoutStorageStops : Obligations.UpdWithoutStorageStops := by
  intro f len chr s h
  have hno : ¬ (f.toNat < Config.nDiffFields ∧ len ≤ Config.fieldMaxLen) := by
    simp only [Config.nDiffFields]
    omega
  exact dif_neg hno

/-! ### EVAL repeated, and EVAL on unset entries (R109 to R112) -/

theorem evalOut_changed_eq_false_iff (d : DState) (enc : Vector Encoding Config.nSlots) (now : Millis)
    (k : Fin Config.nSlots) :
    (evalOut d enc now).changed[k] = false ↔ d.pdcValid[k] = true ∧ d.pdcEnc[k] = enc[k] := by
  rw [← Bool.not_eq_true, show (evalOut d enc now).changed = changedLanes d enc from rfl, changedLanes_get, not_or,
    Bool.not_eq_false, not_not]

theorem evalOut_posDirty_eq_false_iff (d : DState) (enc : Vector Encoding Config.nSlots) (now : Millis) :
    (evalOut d enc now).posDirty = false ↔ ∀ k : Fin Config.nSlots, (evalOut d enc now).changed[k] = false := by
  rw [← Bool.not_eq_true, evalOut_posDirty_iff, not_exists]
  simp only [Bool.not_eq_true]

theorem evalOut_posDirty_of_no_redraw {d : DState} {enc : Vector Encoding Config.nSlots} {now : Millis}
    (h : (evalOut d enc now).redraw = false) : (evalOut d enc now).posDirty = false := by
  rw [evalOut_redraw, Bool.or_eq_false_iff] at h
  exact h.1

/-- A lane that is not changed is written with what it holds. -/
theorem DState.afterEval_of_lane_unchanged {d : DState} {enc : Vector Encoding Config.nSlots} {now : Millis}
    {k : Fin Config.nSlots} (h : (evalOut d enc now).changed[k] = false) :
    (d.afterEval enc now).pdcValid[k] = d.pdcValid[k] ∧ (d.afterEval enc now).pdcEnc[k] = d.pdcEnc[k] := by
  obtain ⟨hvalid, henc⟩ := (evalOut_changed_eq_false_iff d enc now k).1 h
  rw [hvalid, henc]
  exact ⟨Vector.getElem_replicate k.isLt, rfl⟩

theorem DState.ext_lanes {d e : DState} (hvalid : ∀ k : Fin Config.nSlots, d.pdcValid[k] = e.pdcValid[k])
    (henc : ∀ k : Fin Config.nSlots, d.pdcEnc[k] = e.pdcEnc[k]) (hlast : d.lastRedrawMs = e.lastRedrawMs) : d = e := by
  obtain ⟨v, c, l⟩ := d
  obtain ⟨v', c', l'⟩ := e
  obtain rfl : v = v' := Vector.ext fun i hi => hvalid ⟨i, hi⟩
  obtain rfl : c = c' := Vector.ext fun i hi => henc ⟨i, hi⟩
  obtain rfl : l = l' := hlast
  rfl

/-- An EVAL that asks for no redraw leaves level 1 as it was (R109). -/
theorem DState.afterEval_of_no_redraw {d : DState} {enc : Vector Encoding Config.nSlots} {now : Millis}
    (h : (evalOut d enc now).redraw = false) : d.afterEval enc now = d := by
  have hlanes := (evalOut_posDirty_eq_false_iff d enc now).1 (evalOut_posDirty_of_no_redraw h)
  exact DState.ext_lanes (fun k => (afterEval_of_lane_unchanged (hlanes k)).1)
    (fun k => (afterEval_of_lane_unchanged (hlanes k)).2) (d.afterEval_lastRedrawMs_of_no_redraw enc now h)

/-- Settles O16: EVAL's lanes are written with what they hold where nothing changed. -/
theorem cacheUpdatePoliciesCoincide : Obligations.CacheUpdatePoliciesCoincide := by
  intro now s t h
  rw [exec_eval] at h
  cases h
  exact ⟨fun k hk => DState.afterEval_of_lane_unchanged hk,
    fun hr => (evalOut_posDirty_eq_false_iff _ _ now).1 (evalOut_posDirty_of_no_redraw hr),
    fun hr => DState.afterEval_of_no_redraw hr⟩

/-- Settles O17: an unset entry counts as changed, and one changed lane asks for a redraw. -/
theorem firstEvalAlwaysRedraws : Obligations.FirstEvalAlwaysRedraws := by
  intro now s hunset
  have hchanged : ∀ k : Fin Config.nSlots, (evalOut s.gate (encodings s.asm.rpt) now).changed[k] = true :=
    fun k => (evalOut_changed_iff _ _ now k).2 (.inl (hunset k))
  have hredraw : (evalOut s.gate (encodings s.asm.rpt) now).redraw = true :=
    (evalOut_redraw_iff _ _ now).2 (.inl ((evalOut_posDirty_iff _ _ now).2 ⟨0, hchanged 0⟩))
  exact ⟨_, exec_eval now s, hchanged, hredraw, s.gate.afterEval_lastRedrawMs_of_redraw _ now hredraw⟩

/-- The encodings just seen move no lane, whatever they are (R111, R173). -/
theorem evalOut_posDirty_afterEval (d : DState) (enc : Vector Encoding Config.nSlots) (now now2 : Millis) :
    (evalOut (d.afterEval enc now) enc now2).posDirty = false :=
  (evalOut_posDirty_eq_false_iff _ enc now2).2 fun k =>
    (evalOut_changed_eq_false_iff _ enc now2 k).2 ⟨Vector.getElem_replicate k.isLt, rfl⟩

/-- Settles O18: with no lane moved, only the refresh asks for a redraw. -/
theorem evalIsIdempotentUpToTheRefresh : Obligations.EvalIsIdempotentUpToTheRefresh := by
  intro now now2 s t h
  rw [exec_eval] at h
  cases h
  have hclean := evalOut_posDirty_afterEval s.gate (encodings s.asm.rpt) now now2
  refine ⟨_, exec_eval now2 _, hclean, ?_, fun hr => DState.afterEval_of_no_redraw hr⟩
  refine (evalOut_redraw_iff _ _ now2).trans ?_
  rw [hclean, evalOut_refreshDue_iff]
  simp

end Sys2Proof.Machine

namespace Sys2Proof.Machine

/-! ### The cell ports (R55, R131) and the string port (R130) -/

/-- The code 11 never appears (R55). -/
theorem CellOp.kind_ne_three (o : CellOp) : o.kind ≠ 0b11 := by cases o <;> simp [CellOp.kind]

theorem CellOp.kind_eq_zero_iff (o : CellOp) : o.kind = 0 ↔ o = .none := by cases o <;> simp [CellOp.kind]

theorem opKindPort_field (n : Nat) (cells : List (Nat × CellOp)) {p : Nat} (hp : p < n) :
    (opKindPort n cells).extractLsb' (2 * p) 2 = (cellShown cells p).kind :=
  packLanes_range _ n (fun p => (cellShown cells p).kind) p (Nat.le_refl _) hp

theorem opChrPort_field (n : Nat) (cells : List (Nat × CellOp)) {p : Nat} (hp : p < n) :
    (opChrPort n cells).extractLsb' (8 * p) 8 = (cellShown cells p).chr :=
  packLanes_range _ n (fun p => (cellShown cells p).chr) p (Nat.le_refl _) hp

/-- The port is 0 when each of its fields is. -/
theorem opKindPort_eq_zero_iff (n : Nat) (cells : List (Nat × CellOp)) :
    opKindPort n cells = 0 ↔ ∀ p < n, cellShown cells p = .none := by
  constructor
  · intro h p hp
    rw [← CellOp.kind_eq_zero_iff, ← opKindPort_field n cells hp, h]
    exact BitVec.extractLsb'_zero
  · intro h
    refine eq_of_fields_eq (Nat.le_refl _) fun p hp => ?_
    rw [opKindPort_field n cells hp, h p hp]
    exact BitVec.extractLsb'_zero.symm

theorem opChrPort_quiet (n : Nat) : opChrPort n [] = 0 := by
  refine eq_of_fields_eq (k := 8) (n := n) (Nat.le_refl _) fun p hp => ?_
  rw [opChrPort_field n [] hp]
  exact BitVec.extractLsb'_zero.symm

/-- What a cycle shows of level 2: a UPD's results, or nothing (R118, R120, R125). -/
theorem CState.shown_cases (fc : CState) (p : Pins) :
    (updAccepted p ∧ ∃ e : FieldEntry, fc.shown p = diffOut Config.fieldMaxLen e p.updLen p.updChr) ∨
    (¬ updAccepted p ∧ fc.shown p = DiffOut.quiet) := by
  cases hv : p.updValid with
  | false => exact .inr ⟨fun h => Bool.false_ne_true (hv.symm.trans h.1), by simp [CState.shown, hv]⟩
  | true =>
    have hshown : fc.shown p = (updBlock Config.fieldMaxLen fc p.updField p.updLen p.updChr).2 := by
      simp [CState.shown, hv]
    rw [hshown]
    rcases updBlock_cases Config.fieldMaxLen fc p.updField p.updLen p.updChr with ⟨hf, hl, e⟩ | ⟨hn, e⟩ <;> rw [e]
    · exact .inl ⟨⟨hv, hf, hl⟩, _, rfl⟩
    · exact .inr ⟨fun h => hn ⟨h.2.1, h.2.2⟩, rfl⟩

/-- `op_any` says whether some field of `op_kind` is not 0. -/
theorem diffOut_opAny_iff_opKindPort (n : Nat) (e : FieldEntry) (len : Nat) (chr : List CharCode) :
    (diffOut n e len chr).opAny = true ↔ opKindPort n (diffOut n e len chr).cells ≠ 0 := by
  have hshown : ∀ p < n, (cellShown (diffOut n e len chr).cells p = .none ↔ cellOpAt e len chr p = .none) := by
    intro p hp
    rw [cellShown_diffOut, if_pos hp]
  rw [diffOut_opAny, ne_eq, opKindPort_eq_zero_iff, forall₂_congr hshown]
  push Not
  rfl

/-- Settles O25: the fields of the packed ports, and what a cycle shows of level 2. -/
theorem cellPortsCarryTheCellsInOrder : Obligations.CellPortsCarryTheCellsInOrder := by
  refine ⟨fun o p hp => ?fields, fun s t h hno => ?quiet, fun s t h => ?opAny⟩
  case fields =>
    have hkind := opKindPort_field Config.fieldMaxLen o.diff.cells hp
    refine ⟨hkind, opChrPort_field Config.fieldMaxLen o.diff.cells hp, ?_⟩
    rw [Outputs.opKind, hkind]
    exact CellOp.kind_ne_three _
  case quiet =>
    obtain ⟨-, -, -, hout⟩ := step_parts h
    have hdiff : t.out.diff = DiffOut.quiet := by
      rcases s.cells.shown_cases s.pins with ⟨hyes, -⟩ | ⟨-, e⟩
      · exact absurd hyes hno
      · rw [hout]; exact e
    rw [Outputs.opKind, Outputs.opChr, hdiff]
    exact ⟨(opKindPort_eq_zero_iff _ _).2 fun _ _ => rfl, opChrPort_quiet _, rfl⟩
  case opAny =>
    obtain ⟨-, -, -, hout⟩ := step_parts h
    have hdiff : t.out.diff = s.cells.shown s.pins := by rw [hout]; rfl
    rw [Outputs.opKind, hdiff]
    rcases s.cells.shown_cases s.pins with ⟨-, e, he⟩ | ⟨-, he⟩ <;> rw [he]
    · exact diffOut_opAny_iff_opKindPort _ e _ _
    · refine iff_of_false Bool.false_ne_true (not_not_intro ?_)
      exact (opKindPort_eq_zero_iff _ _).2 fun _ _ => rfl

/-- Settles O27: `upd_chr` is the pack of the string's characters. -/
theorem stringPortCarriesTheCharactersInOrder : Obligations.StringPortCarriesTheCharactersInOrder :=
  fun chr i hi => packLanes_range _ Config.fieldMaxLen (chrAt chr) i (Nat.le_refl _) hi

/-! ### Properties of UPD (R118, R121, R122) -/

/-- The same string asks for nothing in any cell (R121). -/
theorem cellOpAt_ofString_same (len : Nat) (chr : List CharCode) (p : Nat) :
    cellOpAt (FieldEntry.ofString len chr) len chr p = .none := by
  by_cases hp : p < len
  · have hold : oldAt (FieldEntry.ofString len chr) p = newAt chr len p := by
      rw [oldAt, FieldEntry.ofString_len, FieldEntry.ofString_read, if_pos (by omega), newAt]
    simp [cellOpAt, hp, hold]
  · simp [cellOpAt, hp]

theorem diffOut_ofString_same (n len : Nat) (chr : List CharCode) :
    diffOut n (FieldEntry.ofString len chr) len chr = DiffOut.quiet := by
  simp [diffOut, cellOpAt_ofString_same, DiffOut.quiet]

/-- A UPD with the string that the entry holds shows nothing and leaves all as it is. -/
theorem exec_upd_same {f : BitVec 4} {len : Nat} {chr : List CharCode} {s : State}
    (hf : f.toNat < Config.nDiffFields) (hl : len ≤ Config.fieldMaxLen)
    (hentry : s.cells[f.toNat] = FieldEntry.ofString len chr) :
    exec (.upd f len chr) s = .next { s with out := { s.out with diff := DiffOut.quiet } } := by
  have hcells : s.cells.set f.toNat (FieldEntry.ofString len chr) = s.cells := by
    rw [← hentry, Vector.set_getElem_self]
  have hexec : exec (.upd f len chr) s = _ := dif_pos ⟨hf, hl⟩
  rw [hexec, hcells, hentry, diffOut_ofString_same]

/-- Settles O22: the entry holds the string the second UPD brings. -/
theorem updIsIdempotent : Obligations.UpdIsIdempotent := by
  intro f len chr s t h
  rcases updateField_cases _ f len chr s _ h with ⟨hf, hl, e⟩ | ⟨-, e⟩
  · cases e
    exact ⟨_, exec_upd_same hf hl (Vector.getElem_set_self hf), fun _ => rfl, rfl, rfl, sameState_of_out _ _⟩
  · cases e

/-- What a UPD that goes on shows in its cells. -/
theorem cells_of_exec_upd {f : Fin Config.nDiffFields} {len : Nat} {chr : List CharCode} {s t : State}
    (h : exec (.upd (BitVec.ofNat 4 f) len chr) s = .next t) :
    len ≤ Config.fieldMaxLen ∧ t.out.diff.cells = (diffOut Config.fieldMaxLen s.cells[f] len chr).cells := by
  have hl : len ≤ Config.fieldMaxLen := by
    rcases updateField_cases _ _ len chr s _ h with ⟨-, hl, -⟩ | ⟨-, e⟩
    · exact hl
    · cases e
  rw [exec_upd f len chr s hl] at h
  cases h
  exact ⟨hl, rfl⟩

/-- The cells with an operation, counted. -/
theorem diffOut_cells_length (n : Nat) (e : FieldEntry) (len : Nat) (chr : List CharCode) :
    (diffOut n e len chr).cells.length = (List.range n).countP fun p => decide (cellOpAt e len chr p ≠ .none) := by
  have hsome : ∀ p, (if cellOpAt e len chr p = .none then Option.none else some (p, cellOpAt e len chr p)).isSome =
      decide (cellOpAt e len chr p ≠ .none) := by
    intro p
    split <;> simp [*]
  simp only [diffOut, List.length_filterMap_eq_countP, hsome]

/-- What a UPD asks for in a cell, once (R118): by which of the strings reach the cell, and for a shared cell by its
characters. -/
theorem cellOpAt_cases (e : FieldEntry) (len : Nat) (chr : List CharCode) (p : Nat) :
    (p < len ∧ p < e.len ∧ newAt chr len p = oldAt e p ∧ cellOpAt e len chr p = .none) ∨
    (p < len ∧ p < e.len ∧ newAt chr len p ≠ oldAt e p ∧ cellOpAt e len chr p = .draw (newAt chr len p)) ∨
    (p < len ∧ ¬ p < e.len ∧ cellOpAt e len chr p = .draw (newAt chr len p)) ∨
    (¬ p < len ∧ p < e.len ∧ cellOpAt e len chr p = .blank) ∨
    (¬ p < len ∧ ¬ p < e.len ∧ cellOpAt e len chr p = .none) := by
  by_cases hn : p < len <;> by_cases ho : p < e.len
  · by_cases hsame : newAt chr len p = oldAt e p <;> simp [cellOpAt, hn, ho, hsame]
  · simp [cellOpAt, hn, ho]
  · simp [cellOpAt, hn, ho]
  · simp [cellOpAt, hn, ho]

/-- In a shared cell a UPD asks for something where the characters differ. -/
theorem cellOpAt_ne_none_iff_of_shared {e : FieldEntry} {len : Nat} {chr : List CharCode} {p : Nat}
    (hp : p < min len e.len) : cellOpAt e len chr p ≠ .none ↔ newAt chr len p ≠ oldAt e p := by
  rcases cellOpAt_cases e len chr p with ⟨-, -, hc, h⟩ | ⟨-, -, hc, h⟩ | ⟨-, ho, -⟩ | ⟨hn, -⟩ | ⟨hn, -⟩
  · simp [hc, h]
  · simp [hc, h]
  all_goals omega

/-- In a cell of one string only it draws or blanks. -/
theorem cellOpAt_ne_none_of_one {e : FieldEntry} {len : Nat} {chr : List CharCode} {p : Nat}
    (hlo : min len e.len ≤ p) (hhi : p < max len e.len) : cellOpAt e len chr p ≠ .none := by
  rcases cellOpAt_cases e len chr p with ⟨hn, ho, -⟩ | ⟨hn, ho, -⟩ | ⟨-, -, h⟩ | ⟨-, -, h⟩ | ⟨hn, ho, -⟩
  case inr.inr.inl | inr.inr.inr.inl => simp [h]
  all_goals omega

theorem cellOpAt_eq_none_of_beyond {e : FieldEntry} {len : Nat} {chr : List CharCode} {p : Nat}
    (hp : max len e.len ≤ p) : cellOpAt e len chr p = .none := by
  rcases cellOpAt_cases e len chr p with ⟨hn, -⟩ | ⟨hn, -⟩ | ⟨hn, -⟩ | ⟨-, ho, -⟩ | ⟨-, -, h⟩
  case inr.inr.inr.inr => exact h
  all_goals omega

/-- A count over the cells of which none below `a` but those that meet `q`, all of the next `b` and no other is counted. -/
theorem countP_range_of_parts {P q : Nat → Bool} {a b n : Nat} (hn : a + b ≤ n) (hlow : ∀ p < a, P p = q p)
    (hmid : ∀ p, a ≤ p → p < a + b → P p = true) (hhigh : ∀ p, a + b ≤ p → P p = false) :
    (List.range n).countP P = (List.range a).countP q + b := by
  obtain ⟨c, rfl⟩ := Nat.exists_eq_add_of_le hn
  have hone : (List.range a).countP P = (List.range a).countP q :=
    List.countP_congr fun p hp => by rw [hlow p (List.mem_range.1 hp)]
  have htwo : (List.range b).countP (P ∘ (a + ·)) = b := by
    refine (List.countP_eq_length.2 fun p hp => ?_).trans List.length_range
    have hlt := List.mem_range.1 hp
    exact hmid (a + p) (by omega) (by omega)
  have hthree : (List.range c).countP (P ∘ (a + b + ·)) = 0 :=
    List.countP_eq_zero.2 fun p _ => by simp [hhigh (a + b + p) (by omega)]
  rw [List.range_add, List.range_add, List.countP_append, List.countP_append, List.countP_map, List.countP_map, hone,
    htwo, hthree, Nat.add_zero]

/-- R122: as many cells as shared characters differ, and the change of length. -/
theorem diffOut_cells_length_eq {n : Nat} {e : FieldEntry} {len : Nat} (chr : List CharCode) (hl : len ≤ n)
    (he : e.len ≤ n) :
    (diffOut n e len chr).cells.length =
      ((List.range (min len e.len)).countP fun p => newAt chr len p != oldAt e p) +
      ((len - e.len) + (e.len - len)) := by
  rw [diffOut_cells_length]
  have hmax : min len e.len + ((len - e.len) + (e.len - len)) = max len e.len := by omega
  refine countP_range_of_parts (by omega) (fun p hp => ?low) (fun p hlo hhi => ?mid) (fun p hp => ?high)
  case low =>
    rw [Bool.eq_iff_iff, decide_eq_true_eq, cellOpAt_ne_none_iff_of_shared hp, bne_iff_ne]
  case mid => exact decide_eq_true (cellOpAt_ne_none_of_one hlo (by omega))
  case high => simp [cellOpAt_eq_none_of_beyond (e := e) (len := len) (chr := chr) (p := p) (by omega)]

/-- Two strings of one length agree from the right when they agree from the left. -/
theorem forall_newAt_eq_oldAt_iff (e : FieldEntry) (chr : List CharCode) :
    (∀ p < e.len, newAt chr e.len p = oldAt e p) ↔ ∀ i < e.len, chrAt chr i = e.chr.read i := by
  constructor <;> intro h i hi
  · have hflip : e.len - 1 - (e.len - 1 - i) = i := by omega
    have := h (e.len - 1 - i) (by omega)
    rwa [newAt, oldAt, hflip] at this
  · exact h _ (by omega)

/-- Settles O23: the count by R122's sum, which is 0 where both summands are. -/
theorem updOperationCountIsDifferencesPlusLengthChange :
    Obligations.UpdOperationCountIsDifferencesPlusLengthChange := by
  intro f len chr s t hold h
  obtain ⟨hl, hcells⟩ := cells_of_exec_upd h
  have hcount := diffOut_cells_length_eq chr hl hold
  rw [← hcells] at hcount
  refine ⟨by rw [hcount, List.countP_eq_length_filter]; rfl, ?_⟩
  rw [← List.length_eq_zero_iff, hcount, Nat.add_eq_zero_iff, List.countP_eq_zero]
  constructor
  · rintro ⟨hsame, hlens⟩
    have hlen : len = s.cells[f].len := by omega
    subst hlen
    refine ⟨rfl, (forall_newAt_eq_oldAt_iff _ chr).1 fun p hp => ?_⟩
    simpa using hsame p (by simpa using hp)
  · rintro ⟨hlen, hchars⟩
    subst hlen
    refine ⟨fun p hp => ?_, by omega⟩
    simpa using (forall_newAt_eq_oldAt_iff _ chr).2 hchars p (by simpa using hp)

/-! #### No fewer operations would do (R118) -/

theorem displayed_old (e : FieldEntry) (p : Nat) :
    displayed e.len e.chr.read p = if p < e.len then some (oldAt e p) else none := rfl

theorem displayed_new (len : Nat) (chr : List CharCode) (p : Nat) :
    displayed len (chrAt chr) p = if p < len then some (newAt chr len p) else none := rfl

/-- A UPD's operation turns what the cell shows of the old string into what it shows of the new one. -/
theorem cellOpAt_applyTo (e : FieldEntry) (len : Nat) (chr : List CharCode) (p : Nat) :
    (cellOpAt e len chr p).applyTo (displayed e.len e.chr.read p) = displayed len (chrAt chr) p := by
  rw [displayed_old, displayed_new]
  rcases cellOpAt_cases e len chr p with ⟨hn, ho, hc, h⟩ | ⟨hn, ho, -, h⟩ | ⟨hn, ho, h⟩ | ⟨hn, ho, h⟩ | ⟨hn, ho, h⟩ <;>
    rw [h]
  · simp [CellOp.applyTo, hn, ho, hc]
  all_goals simp [CellOp.applyTo, hn, ho]

/-- A cell for which a UPD asks something shows something else before and after. -/
theorem displayed_ne_of_cellOpAt {e : FieldEntry} {len : Nat} {chr : List CharCode} {p : Nat}
    (hop : cellOpAt e len chr p ≠ .none) : displayed e.len e.chr.read p ≠ displayed len (chrAt chr) p := by
  rw [displayed_old, displayed_new]
  rcases cellOpAt_cases e len chr p with ⟨-, -, -, h⟩ | ⟨hn, ho, hc, -⟩ | ⟨hn, ho, -⟩ | ⟨hn, ho, -⟩ | ⟨-, -, h⟩
  · exact absurd h hop
  · simpa [hn, ho] using hc.symm
  · simp [hn, ho]
  · simp [hn, ho]
  · exact absurd h hop

/-- A cell that shows an operation is listed. -/
theorem mem_of_cellShown_ne_none {ops : List (Nat × CellOp)} {p : Nat} (h : cellShown ops p ≠ .none) :
    p ∈ ops.map Prod.fst := by
  unfold cellShown at h
  split at h
  next c hc => exact List.mem_map.2 ⟨c, List.mem_of_find?_eq_some hc, by simpa using List.find?_some hc⟩
  next => exact absurd rfl h

/-- The cells of a UPD's results are those with an operation, each once. -/
theorem diffOut_cells_fst (n : Nat) (e : FieldEntry) (len : Nat) (chr : List CharCode) :
    (diffOut n e len chr).cells.map Prod.fst =
      (List.range n).filter fun p => decide (cellOpAt e len chr p ≠ .none) := by
  rw [diffOut, List.map_filterMap, ← List.filterMap_eq_filter]
  congr 1
  funext p
  by_cases hp : cellOpAt e len chr p = .none <;> simp [hp, Option.guard]

/-- Any operations that redraw the field list every cell that a UPD lists. -/
theorem diffOut_cells_fst_subset {n : Nat} {e : FieldEntry} {len : Nat} {chr : List CharCode}
    {ops : List (Nat × CellOp)} (h : TurnsInto ops (displayed e.len e.chr.read) (displayed len (chrAt chr))) :
    (diffOut n e len chr).cells.map Prod.fst ⊆ ops.map Prod.fst := by
  intro p hp
  rw [diffOut_cells_fst, List.mem_filter, decide_eq_true_eq] at hp
  refine mem_of_cellShown_ne_none fun hnone => displayed_ne_of_cellOpAt hp.2 ?_
  have hturn := h p
  rwa [hnone] at hturn

theorem diffOut_turnsInto {n : Nat} {e : FieldEntry} {len : Nat} {chr : List CharCode} (hl : len ≤ n)
    (he : e.len ≤ n) :
    TurnsInto (diffOut n e len chr).cells (displayed e.len e.chr.read) (displayed len (chrAt chr)) := by
  intro p
  have hshown : cellShown (diffOut n e len chr).cells p = cellOpAt e len chr p := by
    rw [cellShown_diffOut]
    split
    next => rfl
    next hp => exact (cellOpAt_eq_none_of_beyond (by omega)).symm
  rw [hshown]
  exact cellOpAt_applyTo e len chr p

/-- Settles O24: the cells of a UPD are distinct and each is among the cells of any list that redraws the field. -/
theorem updOperationsAreTheFewestThatRedraw : Obligations.UpdOperationsAreTheFewestThatRedraw := by
  intro f len chr s t hold h
  obtain ⟨hl, hcells⟩ := cells_of_exec_upd h
  rw [hcells]
  refine ⟨diffOut_turnsInto hl hold, fun ops hops => ?_⟩
  have hnodup : ((diffOut Config.fieldMaxLen s.cells[f] len chr).cells.map Prod.fst).Nodup := by
    rw [diffOut_cells_fst]
    exact List.nodup_range.filter _
  simpa using (List.subperm_of_subset hnodup (diffOut_cells_fst_subset hops)).length_le

end Sys2Proof.Machine

namespace Sys2Proof.Machine

/-! ### Runs over given inputs

A run never stops, and its reassembler is that of R132's `next`, input by input. -/

/-- The reassembler after a run over the given inputs. -/
def RState.run (r : RState) (ps : List Pins) : RState := ps.foldl RState.next r

@[simp] theorem RState.run_nil (r : RState) : r.run [] = r := rfl

@[simp] theorem RState.run_cons (r : RState) (p : Pins) (ps : List Pins) : r.run (p :: ps) = (r.next p).run ps := rfl

theorem RState.run_concat (r : RState) (ps : List Pins) (p : Pins) : r.run (ps ++ [p]) = (r.run ps).next p :=
  List.foldl_append

theorem runInputs_asm (ps : List Pins) (s : State) : ∃ t, runInputs ps s = .next t ∧ t.asm = s.asm.run ps := by
  induction ps generalizing s with
  | nil => exact ⟨s, rfl, rfl⟩
  | cons p ps ih =>
    have hstep := step_eq_afterEdge { s with pins := p }
    obtain ⟨t, hrun, hasm⟩ := ih ({ s with pins := p } : State).afterEdge.endCycle
    refine ⟨t, by simpa [runInputs, hstep] using hrun, ?_⟩
    rw [hasm, State.endCycle_asm]
    rfl

theorem asm_of_runInputs {ps : List Pins} {s t : State} (h : runInputs ps s = .next t) : t.asm = s.asm.run ps := by
  obtain ⟨u, hu, hasm⟩ := runInputs_asm ps s
  rw [h] at hu
  cases hu
  exact hasm

theorem NoReset.append_iff (ps qs : List Pins) : NoReset (ps ++ qs) ↔ NoReset ps ∧ NoReset qs :=
  List.forall_mem_append

theorem NoReset.singleton_iff (p : Pins) : NoReset [p] ↔ p.rst = false := List.forall_mem_singleton

theorem chunksOf_append (ps qs : List Pins) : chunksOf (ps ++ qs) = chunksOf ps ++ chunksOf qs := by simp [chunksOf]

theorem chunksOf_of_chunk {p : Pins} (h : p.chunkValid = true) : chunksOf [p] = [p.chunkData] := by simp [chunksOf, h]

theorem chunksOf_of_no_chunk {p : Pins} (h : p.chunkValid = false) : chunksOf [p] = [] := by simp [chunksOf, h]

/-! ### A frame in progress (R77) -/

/-- The chunks `cs`, the first at offset 0, are what the frame in progress has collected. -/
structure Collected (cs : List Chunk) (r : RState) : Prop where
  collecting : r.collecting = true
  cursor : r.cursor.toNat = 7 * cs.length
  bufWf : r.buf.wf = true
  bytes : ∀ a, r.buf.read a = (cs.flatMap chunkBytes).getD a 0
  reportValid : r.reportValid = false

theorem flatMap_chunkBytes_length (cs : List Chunk) : (cs.flatMap chunkBytes).length = 7 * cs.length := by
  induction cs with
  | nil => rfl
  | cons c cs ih =>
    rw [List.flatMap_cons, List.length_append, chunkBytes_length, ih, List.length_cons]
    omega

/-- The bytes of one chunk more: the chunk's own behind those of the others. -/
theorem flatMap_chunkBytes_concat_getD (cs : List Chunk) (c : Chunk) (a : Nat) :
    ((cs ++ [c]).flatMap chunkBytes).getD a 0 =
      if 7 * cs.length ≤ a ∧ a < 7 * cs.length + 7 then chunkByte c (a - 7 * cs.length)
      else (cs.flatMap chunkBytes).getD a 0 := by
  have hlen := flatMap_chunkBytes_length cs
  rw [List.flatMap_append, List.flatMap_singleton]
  by_cases hold : a < 7 * cs.length
  · rw [if_neg (by omega), List.getD_append _ _ _ _ (by omega)]
  · rw [List.getD_append_right _ _ _ _ (by omega), hlen]
    by_cases hnew : a < 7 * cs.length + 7
    · rw [if_pos ⟨by omega, hnew⟩, chunkBytes_getD _ _ (by omega)]
    · rw [if_neg (by omega), List.getD_eq_default _ _ (by rw [chunkBytes_length]; omega),
        List.getD_eq_default _ _ (by omega)]

theorem Collected.startFrame (r : RState) (c : Chunk) : Collected [c] (r.startFrame c) where
  collecting := rfl
  cursor := rfl
  bufWf := Memory.wf_writeBytes _ _ _ Memory.wf_nil
  bytes := fun a => by
    rw [r.startFrame_buf_read, ← List.nil_append [c], flatMap_chunkBytes_concat_getD]
    simp
  reportValid := rfl

theorem Collected.hold {cs : List Chunk} {r : RState} (h : Collected cs r) : Collected cs r.hold :=
  ⟨h.collecting, h.cursor, h.bufWf, h.bytes, rfl⟩

/-- A chunk stored behind the collected ones. -/
theorem Collected.append_buf {cs : List Chunk} {r : RState} (h : Collected cs r) (c : Chunk) (a : Nat) :
    (r.append c).buf.read a = ((cs ++ [c]).flatMap chunkBytes).getD a 0 := by
  rw [r.append_buf_read c a h.bufWf, flatMap_chunkBytes_concat_getD, h.cursor, h.bytes]

theorem Collected.append {cs : List Chunk} {r : RState} (h : Collected cs r) (c : Chunk) (hlen : cs.length < 5) :
    Collected (cs ++ [c]) (r.append c) where
  collecting := h.collecting
  cursor := by
    have hcur := h.cursor
    rw [r.append_cursor_toNat c (by omega), hcur, List.length_append, List.length_singleton]
    omega
  bufWf := Memory.wf_writeBytes _ _ _ h.bufWf
  bytes := h.append_buf c
  reportValid := rfl

/-- The sixth chunk hands over the first 37 bytes of the six (R71, R72). -/
theorem Collected.complete {cs : List Chunk} {r : RState} (h : Collected cs r) (c : Chunk) :
    ∀ o < 37, (r.complete c).rpt.read o = ((cs ++ [c]).flatMap chunkBytes).getD o 0 := by
  intro o ho
  have hread : (r.complete c).rpt.read o = if o < 37 then (r.append c).buf.read o else 0 := Memory.read_below 37 _ o
  rw [hread, if_pos ho, h.append_buf]

/-- A run without `rst` and without a chunk, of a cycle at least, ends `report_valid` (R79). -/
theorem RState.run_reportValid_of_no_chunk (r : RState) {ps : List Pins} (hr : NoReset ps) (hne : ps ≠ [])
    (hc : chunksOf ps = []) : (r.run ps).reportValid = false := by
  obtain ⟨qs, p, rfl⟩ := (List.eq_nil_or_concat ps).resolve_left hne
  rw [List.concat_eq_append] at *
  rw [chunksOf_append, List.append_eq_nil_iff] at hc
  have hrst := (NoReset.singleton_iff p).1 ((NoReset.append_iff _ _).1 hr).2
  cases hv : p.chunkValid with
  | false => rw [r.run_concat, RState.next_of_no_chunk _ p hrst hv]; rfl
  | true => rw [chunksOf_of_chunk hv] at hc; cases hc.2

/-- Up to five chunks, of which the first only is magic, are collected from any state, with cycles without a chunk
among them or not. -/
theorem Collected.of_run (r : RState) {c : Chunk} (hm : isMagic c = true) (ps : List Pins) :
    ∀ cs : List Chunk, NoReset ps → chunksOf ps = c :: cs → (∀ d ∈ cs, isMagic d = false) → cs.length ≤ 4 →
      Collected (c :: cs) (r.run ps) := by
  induction ps using List.reverseRecOn with
  | nil => intro cs _ hchunks; cases hchunks
  | append_singleton ps p ih =>
    intro cs hr hchunks hdata hlen
    obtain ⟨hr, hrst⟩ := (NoReset.append_iff _ _).1 hr
    rw [NoReset.singleton_iff] at hrst
    rw [chunksOf_append] at hchunks
    rw [r.run_concat]
    cases hv : p.chunkValid with
    | false =>
      rw [chunksOf_of_no_chunk hv, List.append_nil] at hchunks
      rw [RState.next_of_no_chunk _ p hrst hv]
      exact (ih cs hr hchunks hdata hlen).hold
    | true =>
      rw [chunksOf_of_chunk hv] at hchunks
      rw [RState.next_of_chunk _ p hrst hv]
      rcases List.append_eq_cons_iff.1 hchunks with ⟨-, hlast⟩ | ⟨ds, hfirst, rfl⟩
      · obtain ⟨hp, rfl⟩ := List.cons.inj hlast
        rw [hp, RState.feed_of_magic _ hm]
        exact Collected.startFrame _ c
      · rw [List.length_append, List.length_singleton] at hlen
        have hframe := ih ds hr hfirst (fun d hd => hdata d (List.mem_append_left _ hd)) (by omega)
        have hcur := hframe.cursor
        rw [List.length_cons] at hcur
        rw [RState.feed_of_append _ (hdata _ (by simp)) hframe.collecting (by omega)]
        exact hframe.append p.chunkData (by rw [List.length_cons]; omega)

/-- Settles O47: five chunks are collected, the sixth completes the report; a run over fewer chunks has no chunk yet or
is collecting. -/
theorem sixChunksGiveTheirReport : Obligations.SixChunksGiveTheirReport := by
  intro s ps last c0 c1 c2 c3 c4 c5 hr hchunks hv hlast hm hdata
  obtain ⟨hr, hrst⟩ := (NoReset.append_iff _ _).1 hr
  rw [NoReset.singleton_iff] at hrst
  have hdata' : ∀ d ∈ [c1, c2, c3, c4], isMagic d = false :=
    fun d hd => hdata d (List.mem_append_left [c5] hd)
  constructor
  · have hframe := Collected.of_run s.asm hm ps [c1, c2, c3, c4] hr hchunks hdata' (Nat.le_refl 4)
    have hcur : (s.asm.run ps).cursor.toNat = 35 := hframe.cursor
    obtain ⟨t, hrun, hasm⟩ := runInputs_asm (ps ++ [last]) s
    rw [s.asm.run_concat, RState.next_of_chunk _ last hrst hv, hlast,
      RState.feed_of_complete _ (hdata c5 (by simp)) hframe.collecting (by omega) (by omega)] at hasm
    refine ⟨t, hrun, ?_⟩
    rw [hasm]
    exact ⟨rfl, rfl, hframe.complete c5⟩
  · rintro qs rs u rfl hne hrun
    rw [asm_of_runInputs hrun]
    obtain ⟨hr, -⟩ := (NoReset.append_iff _ _).1 hr
    rw [chunksOf_append] at hchunks
    rcases List.append_eq_cons_iff.1 hchunks with ⟨hnone, -⟩ | ⟨cs, hsome, hrest⟩
    · exact s.asm.run_reportValid_of_no_chunk hr hne hnone
    · have hlen := congrArg List.length hrest
      rw [List.length_append] at hlen
      have hsub : ∀ d ∈ cs, isMagic d = false :=
        fun d hd => hdata' d (by rw [hrest]; exact List.mem_append_left _ hd)
      refine (Collected.of_run s.asm hm qs cs hr hsome hsub ?_).reportValid
      simp only [List.length_cons, List.length_nil] at hlen
      omega

/-! ### Reports six cycles apart (R78) -/

/-- At most `n` chunks into a frame, if in one at all, with the report's bytes those of `rpt`. -/
structure Early (n : Nat) (rpt : Memory) (r : RState) : Prop where
  cursorLe : r.collecting = true → r.cursor.toNat ≤ 7 * n
  rpt : r.rpt = rpt

/-- A cycle stores at most one chunk, and within the first five of a frame completes no report. -/
theorem Early.next {n : Nat} {rpt : Memory} {r : RState} (h : Early n rpt r) (hn : n ≤ 4) (p : Pins)
    (hrst : p.rst = false) : Early (n + 1) rpt (r.next p) ∧ (r.next p).reportValid = false := by
  have hcur := h.cursorLe
  rcases r.next_cases p with ⟨hr, -⟩ | ⟨-, -, e⟩ | ⟨-, -, e⟩
  · rw [hrst] at hr; cases hr
  · rw [e]
    rcases r.feed_cases p.chunkData with ⟨-, e⟩ | ⟨-, -, e⟩ | ⟨-, -, -, e⟩ | ⟨-, hc, hl, e⟩ | ⟨-, hc, -, hl, -⟩
    · rw [e]
      refine ⟨⟨fun _ => ?_, h.rpt⟩, rfl⟩
      change 7 ≤ 7 * (n + 1)
      omega
    · rw [e]
      exact ⟨⟨fun hc => (hcur hc).trans (by omega), h.rpt⟩, rfl⟩
    · rw [e]
      exact ⟨⟨fun hc => Bool.noConfusion hc, h.rpt⟩, rfl⟩
    · rw [e]
      refine ⟨⟨fun _ => ?_, h.rpt⟩, rfl⟩
      rw [r.append_cursor_toNat _ (by omega)]
      have hle := hcur hc
      omega
    · have hle := hcur hc
      omega
  · rw [e]
    exact ⟨⟨fun hc => (hcur hc).trans (by omega), h.rpt⟩, rfl⟩

theorem Early.run {r : RState} (h : r.collecting = false) (ps : List Pins) (hr : NoReset ps) (hlen : ps.length ≤ 5) :
    Early ps.length r.rpt (r.run ps) ∧ (ps ≠ [] → (r.run ps).reportValid = false) := by
  induction ps using List.reverseRecOn with
  | nil => exact ⟨⟨fun hc => Bool.noConfusion (h.symm.trans hc), rfl⟩, fun hne => absurd rfl hne⟩
  | append_singleton ps p ih =>
    obtain ⟨hr, hrst⟩ := (NoReset.append_iff _ _).1 hr
    rw [List.length_append, List.length_singleton] at hlen ⊢
    obtain ⟨hearly, hvalid⟩ := (ih hr (by omega)).1.next (by omega) p ((NoReset.singleton_iff p).1 hrst)
    rw [r.run_concat]
    exact ⟨hearly, fun _ => hvalid⟩

/-- Settles O48: five cycles from IDLE store five chunks at most. -/
theorem reportsAreSixCyclesApart : Obligations.ReportsAreSixCyclesApart := by
  intro s ps hidle hr hne hlen
  obtain ⟨t, hrun, hasm⟩ := runInputs_asm ps s
  obtain ⟨hearly, hvalid⟩ := Early.run hidle ps hr hlen
  rw [← hasm] at hearly hvalid
  exact ⟨t, hrun, hvalid hne, fun a => by rw [hearly.rpt]⟩

end Sys2Proof.Machine
